-- ==== Sys2Proof/Word.lean ====
section
/-! DEFINITION. The words of the block: the widths the spec gives its values (spec/00_scope.md R5, R6;
spec/10_state.md register table). Bit 0 of every word is its least significant bit (R6). -/

namespace Sys2Proof

/-- The 64-bit pattern of an IEEE 754 binary64 number (R7): the width of `ACC`, `STEP` and `WPEND`. -/
abbrev F64 := BitVec 64

/-- A command word on the command port (R40). -/
abbrev Command := BitVec 64

/-- A phase reading `{B, A}`: bit 1 is the level of B, bit 0 the level of A (R21, R37). -/
abbrev Phase := BitVec 2

/-- A word of the transition ROM, and the width of `SUB`: next row in `[3:0]`, tag in `[7:4]` (R38, R11). -/
abbrev RomWord := BitVec 8

/-- A row number or a direction tag: one nibble of a ROM word (R38). -/
abbrev Nibble := BitVec 4

/-- A pin identifier, `PIN_W = 8` bits (R5, R41). -/
abbrev PinId := BitVec 8

/-- The pulses-per-revolution operand, `PULSES_W = 32` bits, unsigned (R5, R41). -/
abbrev Pulses := BitVec 32

/-- The code of a `PlatformError`, 32 bits, the collaborator's own (R42, R71). -/
abbrev PlatformCode := BitVec 32

end Sys2Proof
end

