-- ==== Sys2Proof/Config.lean ====
section
/-! DEFINITION. What is fixed for a machine and what the spec leaves open: the constants the spec decides for this
block (R5), the parameters a model of it takes as arguments (R5: `TT`, `HOME`, `TRAP`, `TAG_CW`, `TAG_CCW`, `FP`,
`READ_ATOMIC`, `SAMPLE_SKEW`, `PIN_VALID`) as one plain record, the ROM and its default contents (R47), and the free values, which have no body. -/

namespace Sys2Proof

/-- The transition ROM: 7 rows of 4 words, row 0 first and column 0 first (R2, R5, R39). -/
abbrev Rom := Vector (Vector RomWord 4) 7

/-- `TT(r, p)`, the ROM word of row `r` for phase `p` (R5, R9). -/
def Rom.word (t : Rom) (r : Fin 7) (p : Phase) : RomWord := (t[r.val]'r.isLt)[p.toNat]'p.isLt

/-- `FP`, the format of the position and step registers, as the name of a format (R5, 93 I16): its operations are those of
Machine/Binary64.lean. -/
inductive FpFormat where
  /-- IEEE 754 binary64, round to nearest, ties to even: the format of this block (R5, R7, D3). -/
  | binary64
  /-- The `n`-th other format, of which the spec says nothing: its operations are free (notes/assumptions/17.md). -/
  | other (n : Nat)
  deriving DecidableEq, Repr

/-- The parameters of the block (R5; R1: 'options in scope'), as plain data: `step` takes the state alone, so the
record stands in `State` and no step changes it (R35 for the ROM; notes/assumptions/1.md). -/
structure Params where
  /-- `TT`: the ROM contents. -/
  tt : Rom
  /-- `HOME`: the row the decoder starts in and returns to when it tags. -/
  home : Fin 7
  /-- `TRAP`: the row a double-bit transition routes to from a phase-determined row. -/
  trap : Fin 7
  /-- `TAG_CW`: the clockwise tag. -/
  tagCw : Nibble
  /-- `TAG_CCW`: the counter-clockwise tag. -/
  tagCcw : Nibble
  /-- `FP`: the format of the position and step registers. -/
  fp : FpFormat
  /-- `READ_ATOMIC`: whether a racing `get` sees only the old or the new value. -/
  readAtomic : Bool
  /-- `SAMPLE_SKEW`: whether the two phase bits are sampled at different instants. -/
  sampleSkew : Bool
  /-- `PIN_VALID`, as the list of the pin ids it accepts (a predicate on 8-bit ids is such a list). -/
  validPins : List PinId
  deriving DecidableEq, Repr

namespace Config

/-- The value of `HOME` for this block: 0 (R5, R49, D6). -/
def home : Fin 7 := 0

/-- The value of `TRAP` for this block: 0 (R5, R51, D6). -/
def trap : Fin 7 := 0

/-- The value of `TAG_CW` for this block: 0x1 (R5, R38, D4). -/
def tagCw : Nibble := 0x1#4

/-- The value of `TAG_CCW` for this block: 0x2 (R5, R38, D4). -/
def tagCcw : Nibble := 0x2#4

/-- The default ROM contents, cell by cell from the table of R47 (D5; general knowledge G1). -/
def defaultTT : Rom := #v[
  #v[0x00#8, 0x02#8, 0x04#8, 0x00#8],   -- row 0 START (home, trap)
  #v[0x03#8, 0x00#8, 0x01#8, 0x10#8],   -- row 1 CW_FINAL
  #v[0x03#8, 0x02#8, 0x00#8, 0x00#8],   -- row 2 CW_BEGIN
  #v[0x03#8, 0x02#8, 0x01#8, 0x00#8],   -- row 3 CW_NEXT
  #v[0x06#8, 0x00#8, 0x04#8, 0x00#8],   -- row 4 CCW_BEGIN
  #v[0x06#8, 0x05#8, 0x00#8, 0x20#8],   -- row 5 CCW_FINAL
  #v[0x06#8, 0x05#8, 0x04#8, 0x00#8]]   -- row 6 CCW_NEXT

/-- FREE VALUE. The pin ids this block's platform accepts: `PIN_VALID` is OPEN (R5, D15, I8), so nothing says
which they are (notes/assumptions/2.md). -/
opaque validPins : List PinId

/-- FREE VALUE. The free input of the `n`-th draw that no listed input answers (R9: 'takes a free input x from
Set under no law'): the torn read of R64, the binding outcome of R71, the order of the two pin reads of R57
(notes/assumptions/6.md). -/
opaque freeInput : Nat → BitVec 64

/-- FREE VALUE. Sign and payload of the quiet NaN that `fadd` (operation 0), `fsub` (1) or `fdiv` (2) of two
patterns gives where IEEE 754 asks for a NaN; IEEE 754 leaves both open (R7, G2; notes/assumptions/9.md). -/
opaque nanBits : Nat → F64 → F64 → BitVec 52

/-- FREE VALUE. `fadd` of another format than binary64: its operations are parameters (93 I16; notes/assumptions/17.md). -/
opaque otherFadd : Nat → F64 → F64 → F64

/-- FREE VALUE. `fsub` of another format. -/
opaque otherFsub : Nat → F64 → F64 → F64

/-- FREE VALUE. `fdiv` of another format. -/
opaque otherFdiv : Nat → F64 → F64 → F64

/-- FREE VALUE. `u2f` of another format. -/
opaque otherU2f : Nat → Nat → F64

/-- FREE VALUE. `F(360)` of another format. -/
opaque otherF360 : Nat → F64

/-- The parameters as R5 decides them for this block, `PIN_VALID` left open. -/
def blockParams : Params :=
  { tt := defaultTT, home := home, trap := trap, tagCw := tagCw, tagCcw := tagCcw, fp := .binary64,
    readAtomic := false, sampleSkew := false, validPins := validPins }

end Config

end Sys2Proof
end

