-- ==== Sys2Proof/Syntax.lean ====
section
/-! DEFINITION. The operations of the block, one constructor for each row of spec/opcode_table.json (R36), and the
reasons a command can be refused for (R81). -/

namespace Sys2Proof

/-- The operations: four commands (R40), the decode that the edge interrupt issues, and the environment's step. -/
inductive Instr where
  /-- `init A, B, N`: INIT with a configuration (R69, R41). -/
  | init (pinA pinB : PinId) (pulses : Pulses)
  /-- `init null`: INIT with the null configuration, `present = 0` (R69, R70). -/
  | initNull
  /-- `deinit`: DEINIT (R76). -/
  | deinit
  /-- `get`: GET (R64). -/
  | get
  /-- `reset`: RESET, whose two steps are RESET_BEGIN (R66) and RESET_COMMIT (R67). -/
  | reset
  /-- `isr`: DECODE, whose steps are DEC_SAMPLE (R57), DEC_BEGIN (R55, R57) and DEC_COMMIT (R56). -/
  | isr
  /-- `pins q`: PIN_SET, the environment's step (R54). -/
  | pins (q : Phase)
  deriving DecidableEq, Repr

/-- The reasons for which the block refuses a command (R81). -/
inductive RefuseReason where
  /-- `c[2:0]` is no operation code (R43). -/
  | reservedCommand
  /-- A reserved bit of the command word is set (R43). -/
  | reservedBits
  /-- `INIT` while `LIFE = 1` (R74). -/
  | initWhileInitialized
  deriving DecidableEq, Repr

end Sys2Proof
end

