-- ==== Sys2Proof/WellFormed.lean ====
section
/-! DEFINITION. Well-formedness: which operations are commands (R36, R40), and which ROM contents are admitted as the
parameter `TT` (R48 to R52), each property a Bool of its own so that a table can be checked. -/

namespace Sys2Proof

/-- The operation is issued on the command port and has a command word; `isr` and `pins` have none (R36, R45). -/
def Instr.isCommand : Instr → Bool
  | .init _ _ _ => true
  | .initNull => true
  | .deinit => true
  | .get => true
  | .reset => true
  | .isr => false
  | .pins _ => false

/-- An operation as a line of an agent's program: its operands are bit vectors of their fields' widths (R41), so
every command is well-formed, and the two operations without a command word are not. -/
def Instr.wf (i : Instr) : Bool := i.isCommand

/-- A decoder configuration: the row and the last phase read (spec/40_transition_rom.md section 3). -/
abbrev Cfg := Fin 7 × Phase

namespace Rom

/-- The next row named by a ROM word, as a row of the ROM; a word naming 7 to 15 (not admitted, R48) gives none. -/
def rowOfWord (w : RomWord) : Option (Fin 7) :=
  if h : (w.extractLsb' 0 4).toNat < 7 then some ⟨(w.extractLsb' 0 4).toNat, h⟩ else none

/-- The four phases. -/
def phases : List Phase := [0#2, 1#2, 2#2, 3#2]

/-- The seven rows. -/
def rows : List (Fin 7) := [0, 1, 2, 3, 4, 5, 6]

/-- The 28 configurations. -/
def cfgs : List Cfg := rows.flatMap fun r => phases.map fun p => (r, p)

/-- The configurations one decode leads to from a configuration. -/
def successors (t : Rom) (c : Cfg) : List Cfg :=
  phases.filterMap fun q => (rowOfWord (t.word c.1 q)).map fun r => (r, q)

/-- One round of the closure: the configurations already listed or led to by one of them. -/
def grow (t : Rom) (l : List Cfg) : List Cfg :=
  cfgs.filter fun c => l.contains c || l.any fun d => (t.successors d).contains c

/-- A list of configurations is closed under the decoder's moves. -/
def closed (t : Rom) (l : List Cfg) : Bool := l.all fun c => (t.successors c).all fun d => l.contains d

/-- The tag nibble of a ROM word (R38). -/
def tagOfWord (w : RomWord) : Nibble := w.extractLsb' 4 4

/-- The words of successive lookups from row `r` for a list of phases, and the row they end in. -/
def path (t : Rom) (r : Fin 7) : List Phase → List RomWord × Option (Fin 7)
  | [] => ([], some r)
  | p :: ps =>
    match rowOfWord (t.word r p) with
    | none => ([t.word r p], none)
    | some r' => let rest := path t r' ps; (t.word r p :: rest.1, rest.2)

/-- The tags of successive lookups from row `r`. -/
def pathTags (t : Rom) (r : Fin 7) (ps : List Phase) : List Nibble := (t.path r ps).1.map tagOfWord

/-- The phases of one clockwise full cycle from phase 3 (R50). -/
def cwPhases : List Phase := [1#2, 0#2, 2#2, 3#2]

/-- The phases of one counter-clockwise full cycle from phase 3 (R50). -/
def ccwPhases : List Phase := [2#2, 0#2, 1#2, 3#2]

end Rom

namespace Params

/-- `Reach` as the spec defines it: it holds of `(HOME, p)` for every `p`, and of `(TT(r, q)[3:0], q)` whenever it
holds of some `(r, p)`. -/
inductive Reach (P : Params) : Cfg → Prop where
  | home (p : Phase) : Reach P (P.home, p)
  | next {r : Fin 7} {p : Phase} (q : Phase) {r' : Fin 7} :
      Reach P (r, p) → Rom.rowOfWord (P.tt.word r q) = some r' → Reach P (r', q)

variable (P : Params)

/-- The configurations reached within `n` rounds. -/
def reachWithin : Nat → List Cfg
  | 0 => Rom.phases.map fun p => (P.home, p)
  | n + 1 => P.tt.grow (reachWithin n)

/-- The configurations the decoder can be in, computed: 28 rounds list them all. -/
def reachable : List Cfg := P.reachWithin 28

/-- The direction tags are two different nonzero values (R38: 0x0 is neither; D4; notes/assumptions/1.md). -/
def tagsOk : Bool := P.tagCw != 0#4 && P.tagCcw != 0#4 && P.tagCw != P.tagCcw

/-- R48: every word's next row is in 0..6 and its tag is none, CW or CCW. -/
def rangeOk : Bool :=
  Rom.cfgs.all fun c =>
    (Rom.rowOfWord (P.tt.word c.1 c.2)).isSome &&
      (Rom.tagOfWord (P.tt.word c.1 c.2) == 0#4 || Rom.tagOfWord (P.tt.word c.1 c.2) == P.tagCw ||
        Rom.tagOfWord (P.tt.word c.1 c.2) == P.tagCcw)

/-- R49: a word with a tag goes to row `HOME`. -/
def homeTagsOk : Bool :=
  Rom.cfgs.all fun c =>
    Rom.tagOfWord (P.tt.word c.1 c.2) == 0#4 || Rom.rowOfWord (P.tt.word c.1 c.2) == some P.home

/-- From row `r` the clockwise full cycle tags once, CW, on its last lookup, and the counter-clockwise one once,
CCW, on its last (the tags of R50 and R52). -/
def cyclesTagFrom (r : Fin 7) : Bool :=
  P.tt.pathTags r Rom.cwPhases == [0#4, 0#4, 0#4, P.tagCw] &&
    P.tt.pathTags r Rom.ccwPhases == [0#4, 0#4, 0#4, P.tagCcw]

/-- R50: from `(HOME, 3)` both full cycles tag once, at their end, and end in row `HOME`. -/
def fullCyclesOk : Bool :=
  P.cyclesTagFrom P.home && (P.tt.path P.home Rom.cwPhases).2 == some P.home &&
    (P.tt.path P.home Rom.ccwPhases).2 == some P.home

/-- The phases that enter row `r` in `Reach`. -/
def entering (r : Fin 7) : List Phase := Rom.phases.filter fun p => P.reachable.contains (r, p)

/-- R51: no double-bit reading tags, and from a row other than `HOME` that one phase only enters it leads to
`TRAP` without a tag (`ph(r)` read over `Reach`, notes/assumptions/12.md). -/
def doubleBitOk : Bool :=
  (P.reachable.all fun c => Rom.tagOfWord (P.tt.word c.1 (c.2 ^^^ 3#2)) == 0#4) &&
    Rom.rows.all fun r =>
      r == P.home ||
        match P.entering r with
        | [p] => Rom.rowOfWord (P.tt.word r (p ^^^ 3#2)) == some P.trap && Rom.tagOfWord (P.tt.word r (p ^^^ 3#2)) == 0#4
        | _ => true

/-- R52: from every reachable configuration, one lookup for phase 3 leads to a row from which both full cycles tag
once, at their end. -/
def recoveryOk : Bool :=
  P.reachable.all fun c =>
    match Rom.rowOfWord (P.tt.word c.1 3#2) with
    | some r => P.cyclesTagFrom r
    | none => false

/-- The ROM is admitted as `TT`, for the parameters' rows and tags: R48 to R52 (and the computed `reachable` is indeed
closed). -/
def admitted : Bool :=
  P.tagsOk && P.rangeOk && P.homeTagsOk && P.fullCyclesOk && P.tt.closed P.reachable && P.doubleBitOk && P.recoveryOk

/-- The parameters are those of a block this spec admits: the ROM is; the format and the options may have any value. -/
def wf : Bool := P.admitted

end Params

end Sys2Proof
end

