-- ==== Sys2Proof/Decode.lean ====
section
/-! DEFINITION. The command word (spec/30_encoding.md R40, R41, R43, R45): the decoder, total on every 64-bit word and
refusing reserved words by the spec's reason, and after it the encoder, written from the same tables. -/

namespace Sys2Proof

/-- `c[2:0]`, the operation code (R40). -/
def opCode (c : Command) : BitVec 3 := c.extractLsb' 0 3

/-- `c[3]`, `present` (R40). -/
def presentBit (c : Command) : Bool := c.getLsbD 3

/-- `c[15:8]`, `pinA` (R40, R41). -/
def pinAField (c : Command) : PinId := c.extractLsb' 8 8

/-- `c[23:16]`, `pinB` (R40, R41). -/
def pinBField (c : Command) : PinId := c.extractLsb' 16 8

/-- `c[63:32]`, `pulses` (R40, R41). -/
def pulsesField (c : Command) : Pulses := c.extractLsb' 32 32

/-- The reserved bits of `INIT` with `present = 1`: `c[31:24]` and `c[7:4]` (R40). -/
def reservedInit : Command := 0x00000000FF0000F0#64

/-- The reserved bits of `INIT` with `present = 0`: `c[63:4]` (R40). -/
def reservedInitNull : Command := 0xFFFFFFFFFFFFFFF0#64

/-- The reserved bits of `DEINIT`, `GET` and `RESET`: `c[63:3]` (R40). -/
def reservedPlain : Command := 0xFFFFFFFFFFFFFFF8#64

/-- The instruction, unless one of the word's reserved bits is set (R43). -/
def withoutReserved (c mask : Command) (i : Instr) : Except RefuseReason Instr :=
  if c &&& mask = 0#64 then .ok i else .error .reservedBits

/-- The instruction of a command word, or the reason the word is refused for (R40, R43). -/
def decode (c : Command) : Except RefuseReason Instr :=
  if opCode c = 0b001#3 then
    if presentBit c then withoutReserved c reservedInit (.init (pinAField c) (pinBField c) (pulsesField c))
    else withoutReserved c reservedInitNull .initNull
  else if opCode c = 0b010#3 then withoutReserved c reservedPlain .deinit
  else if opCode c = 0b011#3 then withoutReserved c reservedPlain .get
  else if opCode c = 0b100#3 then withoutReserved c reservedPlain .reset
  else .error .reservedCommand

/-- The command word of an operation (R45's encoding column): none for the two operations that have no word. -/
def encode : Instr → Option Command
  | .init pinA pinB pulses => some (pulses ++ 0x00#8 ++ pinB ++ pinA ++ 0x09#8)
  | .initNull => some 0x0000000000000001#64
  | .deinit => some 0x0000000000000002#64
  | .get => some 0x0000000000000003#64
  | .reset => some 0x0000000000000004#64
  | .isr => none
  | .pins _ => none

/-- The decoder on a row of spec/opcode_table.json: the table numbers the bits of the one 64-bit command word as
R6 and R40 do, and a bit above `nbits` is 0. -/
def decodeTableWord (nbits w : Nat) : Option Instr :=
  match decode (BitVec.ofNat 64 (w % 2 ^ nbits)) with
  | .ok i => some i
  | .error _ => none

end Sys2Proof
end

