-- ==== Sys2Proof/Machine/State.lean ====
section
/-! DEFINITION. The state of the block as plain data (spec/10_state.md), the reasons a step of the machine can end in,
and the state after power-on (R27, R91). -/

namespace Sys2Proof.Machine

/-- The fault reasons (R80). None ends the machine: the spec's fault is a step that sets the sticky `FAULT` mark, and
the model takes it as a next state that holds the mark. -/
inductive Fault where
  /-- `LOOKUP` met a row of 7 to 15 (R46). Raised by the decoder's DEC_BEGIN, as a mark in `State.faultMarks`, never
  as the outcome of a step. Safe: the mark is what the spec gives, and nothing is invented for the missing word. -/
  | badRow
  deriving DecidableEq, Repr

/-- The reasons the machine itself can refuse an instruction. The spec's own refusals (R81) are marks in
`State.refusedMarks`, a next state. -/
inductive Refusal where
  /-- The instruction has no meaning in this model; raised by no arm of `exec` as the model stands. Safe. -/
  | notModelled (mnemonic : String)
  deriving DecidableEq, Repr

/-- `LIFE` (R16). -/
inductive Life where
  /-- 0, `Uninitialized`. -/
  | uninitialized
  /-- 1, `Initialized`. -/
  | initialized
  deriving DecidableEq, Repr

/-- `OWN`, the exclusion token (R17). -/
inductive Own where
  /-- 0, free. -/
  | none
  /-- 1, the decoder is between its steps. -/
  | dec
  /-- 2, a controller is between RESET_BEGIN and RESET_COMMIT. -/
  | ctrl
  deriving DecidableEq, Repr

/-- The name of one of the two phase signals (R21, R57). -/
inductive PhaseBit where
  | a
  | b
  deriving DecidableEq, Repr

/-- The status a command returns, with its payload (R42, R78). A successful `GET` carries its 64-bit value. -/
inductive Status where
  | ok
  | okValue (v : F64)
  | invalidArgument
  | notInitialized
  | failed
  | platformError (code : PlatformCode)
  deriving DecidableEq, Repr

/-- The set of fault reasons, one bit for each (R23, R80). -/
structure FaultMarks where
  badRow : Bool
  deriving DecidableEq, Repr

/-- The set of refusal reasons, one bit for each (R23, R81). -/
structure RefusedMarks where
  reservedCommand : Bool
  reservedBits : Bool
  initWhileInitialized : Bool
  deriving DecidableEq, Repr

/-- Whose step is taken next (R8, R10): one turn is one attempt of that agent at its next atomic step. -/
inductive Turn where
  /-- A controller or a reader, by its number: `c1`, `c2`, …, `r1`, … The block gives agents no identifiers of its own
  (R87) and does not check which kind issues a command (R86); see notes/assumptions/3.md. -/
  | agent (a : Nat)
  /-- The decoder. -/
  | decoder
  /-- The environment. -/
  | environment
  deriving DecidableEq, Repr

/-- Everything the spec gives one instance of the block (R26) and its agents; the last four fields are the model's own. -/
structure State where
  /-- `SUB`: row in `[3:0]`, tag of the last decode in `[7:4]` (R11, R12). -/
  sub : RomWord
  /-- `ACC`: the position in degrees (R13). -/
  acc : F64
  /-- `STEP`: degrees per qualifying edge (R15). -/
  stepReg : F64
  /-- `LIFE` (R16). -/
  life : Life
  /-- `OWN` (R17). -/
  own : Own
  /-- `WPEND`: the value of the write to `ACC` in flight (R18). -/
  wpend : F64
  /-- `CALLER`: the controller that holds `OWN = CTRL` (R19). -/
  caller : Nat
  /-- `IRQ`: the edge-interrupt latch (R20). -/
  irq : Bool
  /-- `SLATCH`: the phase bit sampled first and its level, `none` while invalid (R22). -/
  slatch : Option (PhaseBit × Bool)
  /-- `FAULT` (R23). -/
  faultMarks : FaultMarks
  /-- `REFUSED` (R23). -/
  refusedMarks : RefusedMarks
  /-- `PHASE`: the phase input, driven by the environment (R21). -/
  phase : Phase
  /-- The parameters of this block (R1, R5). -/
  params : Params
  /-- What is left of each agent's program, the line being run first; ids strictly rising, no empty program listed
  (R10, R100). -/
  programs : List (Nat × List Command)
  /-- What is left of the environment's script (R10, R100). -/
  script : List Phase
  /-- The statuses and values returned so far, oldest first, each with the agent it went to (R42, R100). -/
  returned : List (Nat × Status)
  /-- The turns still to be taken: the interleaving (R8, R34). -/
  sched : List Turn
  /-- The agent whose command is run (`c` in R66 and R67). -/
  actor : Nat
  /-- Free inputs fixed from outside, read by the next draws (R9). -/
  inputs : List (BitVec 64)
  /-- How many draws no listed input answered (R9). -/
  draws : Nat
  deriving DecidableEq, Repr

/-- Power-on (R27, R91). `SUB`, `ACC`, `STEP`, `WPEND`, `CALLER` and `PHASE` have no value in the spec; theirs here are
DESIGN CHOICES (notes/assumptions/11.md), and no agent has anything to do yet (notes/assumptions/4.md). -/
def State.reset : State :=
  { sub := 0x00#8, acc := 0#64, stepReg := 0#64, life := .uninitialized, own := .none, wpend := 0#64, caller := 0,
    irq := false, slatch := none, faultMarks := ⟨false⟩, refusedMarks := ⟨false, false, false⟩, phase := 3#2,
    params := Config.blockParams, programs := [], script := [], returned := [], sched := [], actor := 0, inputs := [],
    draws := 0 }

end Sys2Proof.Machine
end

