-- ==== Sys2Proof/Machine/Binary64.lean ====
section
/-! DEFINITION. The floating-point primitives of R7 on 64-bit patterns, and at the end those of the parameter `FP`: `fadd`, `fsub`, `fdiv`, `u2f`, correctly rounded
to nearest, ties to even. A finite number is a whole multiple of 2^-1074 (its UNITS), so the exact result of each
operation is an integer or a fraction of integers, and one function rounds it. Infinities and NaNs as IEEE 754 has
them (notes/assumptions/10.md); which NaN is free (notes/assumptions/9.md). -/

namespace Sys2Proof.Machine

/-- `x[63]`, the sign bit (R7). -/
def signBit (x : F64) : Bool := x.getLsbD 63

/-- `x[62:52]`, the biased exponent (R7). -/
def expField (x : F64) : Nat := (x.extractLsb' 52 11).toNat

/-- `x[51:0]`, the fraction (R7). -/
def fracField (x : F64) : Nat := (x.extractLsb' 0 52).toNat

/-- The pattern is a NaN. -/
def isNaN (x : F64) : Bool := expField x == 2047 && fracField x != 0

/-- The pattern is an infinity. -/
def isInf (x : F64) : Bool := expField x == 2047 && fracField x == 0

/-- The pattern is a finite number. -/
def isFinite (x : F64) : Bool := expField x != 2047

/-- The magnitude of a finite pattern, in units of 2^-1074. -/
def magUnits (x : F64) : Nat :=
  if expField x = 0 then fracField x else (2 ^ 52 + fracField x) <<< (expField x - 1)

/-- The value of a finite pattern, in units of 2^-1074. -/
def units (x : F64) : Int := if signBit x then -(magUnits x : Int) else (magUnits x : Int)

/-- The pattern of +infinity, as a number: no sign, exponent 2047, fraction 0. -/
def infPattern : Nat := 2047 <<< 52

/-- The magnitude pattern (exponent and fraction fields as one number) of the binary64 number nearest to
`n / d` units, ties to even, for `d > 0`; infinity when that passes the largest finite number. -/
def roundMag (n d : Nat) : Nat :=
  let k := Nat.log2 (n / d) - 52
  let dk := d <<< k
  let q := n / dk
  let r := n % dk
  let up := decide (dk < 2 * r) || (decide (2 * r = dk) && q % 2 == 1)
  min (k <<< 52 + q + up.toNat) infPattern

/-- The pattern with a sign and a magnitude pattern. -/
def packF (neg : Bool) (mag : Nat) : F64 := BitVec.ofNat 64 (neg.toNat <<< 63 + mag)

/-- The quiet NaN that operation `op` gives: its sign and the low bits of its payload are free. -/
def nanResult (op : Nat) (x y : F64) : F64 :=
  let free := Config.nanBits op x y
  free.extractLsb' 51 1 ++ 0x7FF#11 ++ 1#1 ++ free.extractLsb' 0 51

/-- The correctly rounded sum of two patterns, `nan` being the NaN it gives where IEEE 754 asks for one. An exact
zero sum is +0.0 unless both are -0.0. -/
def sumOr (nan x y : F64) : F64 :=
  if isNaN x || isNaN y then nan
  else if isInf x then if isInf y && signBit x != signBit y then nan else x
  else if isInf y then y
  else if units x + units y = 0 then packF (signBit x && signBit y) 0
  else packF (decide (units x + units y < 0)) (roundMag (units x + units y).natAbs 1)

/-- The pattern with its sign bit flipped. -/
def negF (x : F64) : F64 := x ^^^ 0x8000000000000000#64

/-- `fadd(x, y)` (R7). -/
def fadd (x y : F64) : F64 := sumOr (nanResult 0 x y) x y

/-- `fsub(x, y)` (R7): the exact difference is the sum with `-y`. -/
def fsub (x y : F64) : F64 := sumOr (nanResult 1 x y) x (negF y)

/-- `fdiv(x, y)` (R7). -/
def fdiv (x y : F64) : F64 :=
  let neg := signBit x != signBit y
  if isNaN x || isNaN y || (isInf x && isInf y) || (isFinite x && isFinite y && magUnits x == 0 && magUnits y == 0)
  then nanResult 2 x y
  else if isInf x || (isFinite y && magUnits y == 0) then packF neg infPattern
  else if isInf y then packF neg 0
  else packF neg (roundMag (magUnits x <<< 1074) (magUnits y))

/-- `u2f(n)` (R7). -/
def u2f (n : Nat) : F64 := packF false (roundMag (n <<< 1074) 1)

/-- `F(0)`, +0.0 (R7). -/
def f0 : F64 := 0x0000000000000000#64

/-- `F(360)` (R7). -/
def f360 : F64 := 0x4076800000000000#64

/-! ### The operations of the parameter `FP` (R5, R7) -/

/-- `fadd` of a format. -/
def fpAdd : FpFormat → F64 → F64 → F64
  | .binary64 => fadd
  | .other n => Config.otherFadd n

/-- `fsub` of a format. -/
def fpSub : FpFormat → F64 → F64 → F64
  | .binary64 => fsub
  | .other n => Config.otherFsub n

/-- `fdiv` of a format. -/
def fpDiv : FpFormat → F64 → F64 → F64
  | .binary64 => fdiv
  | .other n => Config.otherFdiv n

/-- `u2f` of a format. -/
def fpOfNat : FpFormat → Nat → F64
  | .binary64 => u2f
  | .other n => Config.otherU2f n

/-- `F(360)` in a format. `F(0)` is `f0` in every format: D19 fixes its pattern (notes/assumptions/17.md). -/
def fp360 : FpFormat → F64
  | .binary64 => f360
  | .other n => Config.otherF360 n

end Sys2Proof.Machine
end

