-- ==== Sys2Proof/Machine/Operands.lean ====
section
/-! DEFINITION. The operand forms: the fields of a ROM word (R12, R38, R39), the bits of a phase reading (R21, R37,
R57), the operands `init` validates (R70), and how a free input is read as each kind of draw (R57, R64, R71; notes/assumptions/6.md). -/

namespace Sys2Proof.Machine

/-- `w[3:0]`, the row (R12, R38, R39). -/
def rowOf (w : RomWord) : Nibble := w.extractLsb' 0 4

/-- `w[7:4]`, the direction tag (R12, R38, R39). -/
def tagOf (w : RomWord) : Nibble := w.extractLsb' 4 4

/-- The level of one phase signal in a reading: A is bit 0, B is bit 1 (R21, R37). -/
def levelOf (side : PhaseBit) (p : Phase) : Bool :=
  match side with
  | .a => p.getLsbD 0
  | .b => p.getLsbD 1

/-- A reading made of a latched level and the other bit of a phase, as `{B, A}` (R57). -/
def joinPhase (first : PhaseBit) (level : Bool) (p : Phase) : Phase :=
  match first with
  | .a => BitVec.ofBool (p.getLsbD 1) ++ BitVec.ofBool level
  | .b => BitVec.ofBool level ++ BitVec.ofBool (p.getLsbD 0)

/-- The operands of `init` pass validation: distinct pins, both accepted by `PIN_VALID`, pulses not 0 (R70). -/
def configValid (p : Params) (pinA pinB : PinId) (pulses : Pulses) : Bool :=
  pinA != pinB && p.validPins.contains pinA && p.validPins.contains pinB && pulses != 0#32

/-- `fdiv(F(360), u2f(pulses))`: the `STEP` of a pulse count, in a format (R15, R73). -/
def stepOf (fp : FpFormat) (pulses : Pulses) : F64 := fpDiv fp (fp360 fp) (fpOfNat fp pulses.toNat)

/-- A free input read as a draw from `BIND` (R71): bit 32 clear is `Ok`, set is `PlatformError` of `[31:0]`. -/
def bindOf (x : BitVec 64) : Option PlatformCode :=
  if x.getLsbD 32 then some (x.extractLsb' 0 32) else none

/-- A free input read as a draw from {A, B} (R57): bit 0 clear is A, set is B. -/
def firstOf (x : BitVec 64) : PhaseBit := if x.getLsbD 0 then .b else .a

/-- A free input read as the value of a racing read (R64): any pattern; with `READ_ATOMIC`, one of the old and the
new value, bit 0 clear being the old. -/
def racingOf (readAtomic : Bool) (acc wpend : F64) (x : BitVec 64) : F64 :=
  if readAtomic then (if x.getLsbD 0 then wpend else acc) else x

/-- The ROM word with a row and no tag: what INIT stores in `SUB` for `HOME`, 0x00 for this block (R73). -/
def untaggedWord (r : Fin 7) : RomWord := BitVec.ofNat 8 r.val

/-- Word `k` of the 64-bit value on a 32-bit read port: word 0 is `[31:0]`, word 1 is `[63:32]` (R29). -/
def portWord (v : F64) (k : Fin 2) : BitVec 32 := v.extractLsb' (32 * k.val) 32

end Sys2Proof.Machine
end

