-- ==== Sys2Proof/Machine/Flags.lean ====
section
/-! DEFINITION. What stands for flags in a block that has no flag register (R25): the action a direction tag selects
(R58), the classes of a phase transition (R37), and when a phase change is an edge to latch (R20, R54); and the numbers
of `LIFE`, `OWN` and the statuses (R16, R17, R42). -/

namespace Sys2Proof.Machine

/-- The accumulator actions (R58). -/
inductive Action where
  | plus
  | minus
  | none
  deriving DecidableEq, Repr

/-- `DISPATCH(t)` (R58): CW adds, CCW subtracts, every other tag leaves the accumulator alone. -/
def dispatch (p : Params) (t : Nibble) : Action :=
  if t = p.tagCw then .plus else if t = p.tagCcw then .minus else .none

/-- The new accumulator value an action computes, if it computes one (R14, R55). -/
def actionValue (fp : FpFormat) (d : Action) (acc stepReg : F64) : Option F64 :=
  match d with
  | .plus => some (fpAdd fp acc stepReg)
  | .minus => some (fpSub fp acc stepReg)
  | .none => none

/-- A transition that changes exactly one phase bit (R37). -/
def singleBit (p q : Phase) : Bool := p ^^^ q == 1#2 || p ^^^ q == 2#2

/-- A transition that changes both phase bits (R37). -/
def doubleBit (p q : Phase) : Bool := p ^^^ q == 3#2

/-- The phase change is an edge the block latches: the level of an input changed while a callback is bound (R54). -/
def edgeLatched (life : Life) (old new : Phase) : Bool := new != old && life == .initialized

/-- The number of a `LIFE` value (R16). -/
def Life.code : Life → BitVec 1
  | .uninitialized => 0#1
  | .initialized => 1#1

/-- The number of an `OWN` value (R17). -/
def Own.code : Own → BitVec 2
  | .none => 0#2
  | .dec => 1#2
  | .ctrl => 2#2

/-- The 3-bit code of a status (R42). -/
def Status.code : Status → BitVec 3
  | .ok => 0#3
  | .okValue _ => 0#3
  | .invalidArgument => 1#3
  | .notInitialized => 2#3
  | .failed => 3#3
  | .platformError _ => 4#3

/-- The 32-bit payload of a status: a `PlatformError`'s, else 0 (R42). -/
def Status.payload : Status → BitVec 32
  | .ok => 0#32
  | .okValue _ => 0#32
  | .invalidArgument => 0#32
  | .notInitialized => 0#32
  | .failed => 0#32
  | .platformError code => code

end Sys2Proof.Machine
end

