-- ==== Sys2Proof/Machine/Ops.lean ====
section
/-! DEFINITION. The operations the meanings share: agents' programs, draws, the four outcomes of a step (R8: it moves
and may return a status, holds, faults, or is refused), the ROM lookup (R46) and the write of `ACC` in flight (R31).
The block has no exception to take or return from (R84, R85): an error is a returned status, `State.answer`, and a
fault or a refusal is a sticky mark, `State.raiseFault` and `State.refuse`. -/

namespace Sys2Proof.Machine

/-- An agent's list (what is left of its program, or what it was told); the list of an agent not named is empty. -/
def listFor {α : Type} : List (Nat × List α) → Nat → List α
  | [], _ => []
  | (b, p) :: rest, a => if a = b then p else listFor rest a

/-- The lists with one agent's replaced, ids strictly rising and no empty list named. -/
def setListFor {α : Type} : List (Nat × List α) → Nat → List α → List (Nat × List α)
  | [], a, p => if p.isEmpty then [] else [(a, p)]
  | (b, q) :: rest, a, p =>
    if a = b then (if p.isEmpty then rest else (a, p) :: rest)
    else if a < b then (if p.isEmpty then (b, q) :: rest else (a, p) :: (b, q) :: rest)
    else (b, q) :: setListFor rest a p

/-- The canonical form of agents' lists: ids strictly rising, no empty list named. -/
def agentListsWf {α : Type} : List (Nat × List α) → Bool
  | [] => true
  | [(_, p)] => !p.isEmpty
  | (a, p) :: (b, q) :: rest => !p.isEmpty && decide (a < b) && agentListsWf ((b, q) :: rest)

/-- What is left of the acting agent's program once its current line is over. -/
def nextPrograms (s : State) : List (Nat × List Command) :=
  setListFor s.programs s.actor (listFor s.programs s.actor).tail

/-- `return S`: the status goes to the agent that took the step, and its line is over (R9, R42). -/
def State.answer (s : State) (st : Status) : State :=
  { s with returned := s.returned ++ [(s.actor, st)], programs := nextPrograms s }

/-- `hold`: the step is not enabled now (R8, R9); nothing changes, and a command stays the agent's current line
(notes/assumptions/5.md). -/
def State.hold (s : State) : State := s

/-- A set of refusal reasons with one more (R23). -/
def RefusedMarks.add (m : RefusedMarks) : RefuseReason → RefusedMarks
  | .reservedCommand => { m with reservedCommand := true }
  | .reservedBits => { m with reservedBits := true }
  | .initWhileInitialized => { m with initWhileInitialized := true }

/-- A refusal reason is in the set. -/
def RefusedMarks.has (m : RefusedMarks) : RefuseReason → Bool
  | .reservedCommand => m.reservedCommand
  | .reservedBits => m.reservedBits
  | .initWhileInitialized => m.initWhileInitialized

/-- A set of fault reasons with one more (R23). -/
def FaultMarks.add (m : FaultMarks) : Fault → FaultMarks
  | .badRow => { m with badRow := true }

/-- `refuse Reason` (R8, R43, R81): the sticky mark is set, no register changes, nothing is returned; the agent's line
is over (notes/assumptions/8.md). -/
def State.refuse (s : State) (r : RefuseReason) : State :=
  { s with refusedMarks := s.refusedMarks.add r, programs := nextPrograms s }

/-- `fault Reason` (R8, R80): the sticky mark is set and the step does nothing else (notes/assumptions/7.md). -/
def State.raiseFault (s : State) (r : Fault) : State := { s with faultMarks := s.faultMarks.add r }

/-- `draw x in Set` (R9): the free input of the next draw, the first listed one or a free value. -/
def State.drawn (s : State) : BitVec 64 :=
  match s.inputs with
  | x :: _ => x
  | [] => Config.freeInput s.draws

/-- The state once a draw is made. -/
def State.afterDraw (s : State) : State :=
  { s with inputs := s.inputs.tail, draws := if s.inputs.isEmpty then s.draws + 1 else s.draws }

/-- `LOOKUP(sub, p)` (R46): the ROM word of row `sub[3:0]` and column `p`; `none` where the row is 7 to 15. -/
def lookup (t : Rom) (sub : RomWord) (p : Phase) : Option RomWord :=
  if h : (rowOf sub).toNat < 7 then some (t.word ⟨(rowOf sub).toNat, h⟩ p) else none

/-- The end of DEC_BEGIN for the looked-up word (R55, R57): the whole word is stored in `SUB`; with a tag the new value
goes to `WPEND` and the decoder holds the token, without one the decode is complete and the token is free. -/
def State.storeWord (s : State) (w : RomWord) : State :=
  match actionValue s.params.fp (dispatch s.params (tagOf w)) s.acc s.stepReg with
  | some v => { s with sub := w, wpend := v, own := .dec }
  | none => { s with sub := w, own := .none }

/-- The second step of a write to `ACC` (R31, R56, R67): the pending value is stored and the token freed. -/
def State.commitWrite (s : State) : State := { s with acc := s.wpend, own := .none }

end Sys2Proof.Machine
end

