-- ==== Sys2Proof/Machine/Decoder.lean ====
section
/-! DEFINITION. The edge source and the edge decoder: `pins`, `isr` (spec/41_edge_decoder.md, R54 to R63). -/

namespace Sys2Proof.Machine

/-- PIN_SET (R54): always enabled; a change of either input while `LIFE = 1` latches `IRQ`. -/
def pinsStep (q : Phase) (s : State) : State :=
  { s with irq := s.irq || edgeLatched s.life s.phase q, phase := q }

/-- The meaning of `pins q` (R54). -/
def execPins (q : Phase) (s : State) : Host.Outcome State Fault Refusal := .next (pinsStep q s)

/-- DEC_BEGIN on one 2-bit sample (R55); a row of 7 to 15 faults (R46). -/
def decBegin (s : State) : State :=
  match lookup s.params.tt s.sub s.phase with
  | none => s.raiseFault .badRow
  | some w => State.storeWord { s with irq := false } w

/-- DEC_SAMPLE (R57): the decoder takes the token and latches the level of one input, drawn. -/
def decSample (s : State) : State :=
  { s.afterDraw with
    irq := false, own := .dec, slatch := some (firstOf s.drawn, levelOf (firstOf s.drawn) s.phase) }

/-- The skewed DEC_BEGIN (R57): the reading joins the latched level with the other input's present level. -/
def decBeginSkewed (first : PhaseBit) (level : Bool) (s : State) : State :=
  match lookup s.params.tt s.sub (joinPhase first level s.phase) with
  | none => s.raiseFault .badRow
  | some w => State.storeWord { s with slatch := none } w

/-- The decoder can start: an edge is pending, the callback is bound, the token is free (R55, R57, R83). -/
def decoderReady (s : State) : Bool := s.irq && s.life == .initialized && s.own == .none

/-- The first step of a decode (R55, R57). -/
def decodeStart (s : State) : State :=
  if decoderReady s then
    if s.params.sampleSkew then (if s.slatch = none then decSample s else s.hold) else decBegin s
  else s.hold

/-- The step of a decoder that holds the token (R56, R57, R59): after DEC_SAMPLE the skewed DEC_BEGIN, else
DEC_COMMIT. With `SAMPLE_SKEW = false` there is no `SLATCH` to look at (R22). -/
def decodeResume (s : State) : State :=
  match s.params.sampleSkew, s.slatch with
  | true, some (first, level) => decBeginSkewed first level s
  | _, _ => s.commitWrite

/-- The next step of DECODE, read from `OWN` (R36, R59; notes/assumptions/13.md). -/
def isrStep (s : State) : State := if s.own = .dec then decodeResume s else decodeStart s

/-- The meaning of `isr`: the next atomic step of DECODE (R36, R55 to R57); it returns nothing (R61). -/
def execIsr (s : State) : Host.Outcome State Fault Refusal := .next (isrStep s)

end Sys2Proof.Machine
end

