-- ==== Sys2Proof/Machine/Lifecycle.lean ====
section
/-! DEFINITION. The lifecycle gate: `init`, `init null`, `deinit` (spec/43_controller.md, R69 to R77). -/

namespace Sys2Proof.Machine

/-- The commit of a successful INIT (R73): `STEP` from the pulses, `ACC` +0.0, `SUB` row `HOME` without a tag
(0x00 for this block; notes/assumptions/18.md), `IRQ` clear, `LIFE` 1. -/
def State.commitInit (s : State) (pulses : Pulses) : State :=
  { s with stepReg := stepOf s.params.fp pulses, acc := f0, sub := untaggedWord s.params.home, irq := false, life := .initialized }

/-- INIT once the token is free and the block is uninitialized (R69): validate, bind, commit. -/
def initUninitialized (pinA pinB : PinId) (pulses : Pulses) (s : State) : State :=
  if configValid s.params pinA pinB pulses then
    match bindOf s.drawn with
    | some code => s.afterDraw.answer (.platformError code)
    | none => (s.afterDraw.commitInit pulses).answer .ok
  else s.answer .invalidArgument

/-- INIT with a configuration (R69). -/
def initStep (pinA pinB : PinId) (pulses : Pulses) (s : State) : State :=
  if s.own ≠ .none then s.hold
  else if s.life = .initialized then s.refuse .initWhileInitialized
  else initUninitialized pinA pinB pulses s

/-- The meaning of `init A, B, N`: one atomic step (R69, R74). -/
def execInit (pinA pinB : PinId) (pulses : Pulses) (s : State) : Host.Outcome State Fault Refusal :=
  .next (initStep pinA pinB pulses s)

/-- INIT with the null configuration (R69, R70). -/
def initNullStep (s : State) : State :=
  if s.own ≠ .none then s.hold
  else if s.life = .initialized then s.refuse .initWhileInitialized
  else s.answer .invalidArgument

/-- The meaning of `init null` (R69, R70). -/
def execInitNull (s : State) : Host.Outcome State Fault Refusal := .next (initNullStep s)

/-- DEINIT (R76): the callbacks are unbound (`IRQ` clear) and `LIFE` is 0; `Failed` while it is 0 already. -/
def deinitStep (s : State) : State :=
  if s.life = .uninitialized then s.answer .failed
  else if s.own ≠ .none then s.hold
  else State.answer { s with irq := false, life := .uninitialized } .ok

/-- The meaning of `deinit` (R76). -/
def execDeinit (s : State) : Host.Outcome State Fault Refusal := .next (deinitStep s)

end Sys2Proof.Machine
end

