-- ==== Sys2Proof/Machine/Position.lean ====
section
/-! DEFINITION. The read gate and the reset gate of the position register: `get`, `reset`
(spec/42_position_access.md, R64 to R68). -/

namespace Sys2Proof.Machine

/-- GET (R64): never holds and writes no register; a read that races a write in flight returns a drawn value (between
the two samples of a skewed decode too, notes/assumptions/14.md). -/
def getStep (s : State) : State :=
  if s.life = .uninitialized then s.answer .notInitialized
  else if s.own = .none then s.answer (.okValue s.acc)
  else s.afterDraw.answer (.okValue (racingOf s.params.readAtomic s.acc s.wpend s.drawn))

/-- The meaning of `get` (R64). -/
def execGet (s : State) : Host.Outcome State Fault Refusal := .next (getStep s)

/-- RESET_BEGIN by the acting agent (R66). Its line is not over: RESET_COMMIT ends it. -/
def resetBegin (s : State) : State :=
  if s.life = .uninitialized then s.answer .notInitialized
  else if s.own ≠ .none then s.hold
  else { s with own := .ctrl, caller := s.actor, wpend := f0 }

/-- RESET_COMMIT (R67). -/
def resetCommit (s : State) : State := s.commitWrite.answer .ok

/-- The next step of RESET: the commit for the controller that began it, else the begin (R66, R67, D23;
notes/assumptions/13.md). -/
def resetStep (s : State) : State :=
  if s.own = .ctrl ∧ s.caller = s.actor then resetCommit s else resetBegin s

/-- The meaning of `reset`: its next atomic step (R36, R66, R67). -/
def execReset (s : State) : Host.Outcome State Fault Refusal := .next (resetStep s)

end Sys2Proof.Machine
end

