-- ==== Sys2Proof/Machine/Dispatch.lean ====
section
/-! DEFINITION. One arm for each operation. -/

namespace Sys2Proof.Machine

def exec (i : Instr) (s : State) : Host.Outcome State Fault Refusal :=
  match i with
  | .init pinA pinB pulses => Sys2Proof.Machine.execInit pinA pinB pulses s
  | .initNull => Sys2Proof.Machine.execInitNull s
  | .deinit => Sys2Proof.Machine.execDeinit s
  | .get => Sys2Proof.Machine.execGet s
  | .reset => Sys2Proof.Machine.execReset s
  | .isr => Sys2Proof.Machine.execIsr s
  | .pins q => Sys2Proof.Machine.execPins q s

end Sys2Proof.Machine
end

