-- ==== Sys2Proof/Machine/Fetch.lean ====
section
/-! DEFINITION. Which step comes next: the turn at the head of the schedule, and the line of the agent whose turn it is
(R8, R10, R36). -/

namespace Sys2Proof.Machine

/-- What a turn comes to. -/
inductive Fetched where
  /-- Nobody has anything to do in this turn. -/
  | idle (s : State)
  /-- The agent's command word is refused by its encoding (R43). -/
  | refused (r : RefuseReason) (s : State)
  /-- The operation is to be run in the state given. -/
  | run (i : Instr) (s : State)
  deriving DecidableEq, Repr

/-- The turn of agent `a`: its current command word is decoded (R40, R43); with no line left it has ended. -/
def fetchAgent (a : Nat) (s : State) : Fetched :=
  match listFor s.programs a with
  | [] => .idle s
  | c :: _ =>
    match decode c with
    | .ok i => .run i { s with actor := a }
    | .error r => .refused r { s with actor := a }

/-- The environment's turn: the next phase of its script is set (R54); with none left it has ended. -/
def fetchEnvironment (s : State) : Fetched :=
  match s.script with
  | [] => .idle s
  | q :: qs => .run (.pins q) { s with script := qs }

/-- The next turn of the schedule, used up; with no turn left nothing happens (notes/assumptions/4.md). -/
def fetch (s : State) : Fetched :=
  match s.sched with
  | [] => .idle s
  | .agent a :: ts => fetchAgent a { s with sched := ts }
  | .decoder :: ts => .run .isr { s with sched := ts }
  | .environment :: ts => fetchEnvironment { s with sched := ts }

/-- The agent that `withFetchWord` loads a command for: `c1`, the default agent of R45. -/
def loadAgent : Nat := 1

/-- A command put before everything agent `c1` still has to do, and `c1`'s turn put next. -/
def loadCommand (s : State) (c : Command) : State :=
  { s with
    programs := setListFor s.programs loadAgent (c :: listFor s.programs loadAgent)
    sched := .agent loadAgent :: s.sched }

end Sys2Proof.Machine
end

