-- ==== Sys2Proof/Machine/Step.lean ====
section
/-! DEFINITION. One atomic step of the block and its agents (R8, R34). -/

namespace Sys2Proof.Machine

/-- The next turn is taken: the operation it fetches is run, or the fetched word is refused, or nothing happens. -/
def step (s : State) : Host.Outcome State Fault Refusal :=
  match fetch s with
  | .idle s' => .next s'
  | .refused r s' => .next (s'.refuse r)
  | .run i s' => exec i s'

/-- The state with the instruction's command word as the next thing `step` fetches: agent `c1`'s current line, and
`c1`'s turn next (notes/assumptions/4.md). -/
def State.withFetchWord (s : State) (nbits w : Nat) : State := loadCommand s (BitVec.ofNat 64 (w % 2 ^ nbits))

end Sys2Proof.Machine
end

