-- ==== Sys2Proof/Safety.lean ====
section
/-! DEFINITION. What counts as a good run, in the terms claims use: the final states and the observation of R100, when a
step is enabled (R8), and the invariants of the block: the token and the lifecycle (R12, R17, R18, R22, R44, R63), the
numbers in the position registers (R15, R65), and which states differ in nothing a run can see (R25, R27). -/

namespace Sys2Proof.Machine

/-- No fault and no refusal has been marked (R100 (1)). -/
def State.clean (s : State) : Bool := s.faultMarks == ⟨false⟩ && s.refusedMarks == ⟨false, false, false⟩

/-- A final state (R100): clean, no write in flight, no edge pending, every agent's program and the environment's
script at their end. -/
def State.final (s : State) : Bool :=
  s.clean && s.own == .none && (!s.irq || s.life == .uninitialized) &&
    s.programs.all (fun e => e.2.isEmpty) && s.script.isEmpty

/-- What one agent was told, in its order (R100). -/
def State.toldTo (s : State) (a : Nat) : List Status :=
  (s.returned.filter fun r => r.1 == a).map fun r => r.2

/-- What every agent was told, each in its own order and nothing of the order across agents (R100), in the canonical form of
agents' lists. -/
def toldLists (returned : List (Nat × Status)) : List (Nat × List Status) :=
  returned.foldl (fun l r => setListFor l r.1 (listFor l r.1 ++ [r.2])) []

/-- The observation of a run (R100): what each agent was told, and the final `LIFE`, `ACC`, `SUB` and `STEP`. -/
structure Observation where
  told : List (Nat × List Status)
  life : Life
  acc : F64
  sub : RomWord
  stepReg : F64
  deriving DecidableEq, Repr

/-- The observation of the run that ends in a state. -/
def State.observe (s : State) : Observation := ⟨toldLists s.returned, s.life, s.acc, s.sub, s.stepReg⟩

/-- The operation is enabled for the acting agent (R8): it does not hold. -/
def enabled (i : Instr) (s : State) : Bool :=
  match i with
  | .init _ _ _ => s.own == .none
  | .initNull => s.own == .none
  | .deinit => s.life == .uninitialized || s.own == .none
  | .get => true
  | .reset => s.life == .uninitialized || s.own == .none || (s.own == .ctrl && s.caller == s.actor)
  | .isr => s.own == .dec || (decoderReady s && (!s.params.sampleSkew || s.slatch.isNone))
  | .pins _ => true

/-- The decoder has sampled one phase bit and not the other (R57). -/
def State.sampling (s : State) : Bool := s.params.sampleSkew && s.own == .dec && s.slatch.isSome

/-- The decoder has begun a write to `ACC` and not committed it (R55, R56). -/
def State.decoding (s : State) : Bool := s.own == .dec && !(s.params.sampleSkew && s.slatch.isSome)

/-- The token and lifecycle invariant: nothing is pending or held while uninitialized (R63, R33); `SLATCH` is valid
only between the two samples (R22, R57); a reset's pending value is +0.0 (R66); a decode's pending value is the one its
tag asks for, of the `ACC` and `STEP` it began with (R34, R56); while initialized the row is in 0..6 and the tag none, CW
or CCW (R12, R44); programs are in canonical form. It speaks of an admitted ROM (R48 to R52). -/
structure TokenInv (s : State) : Prop where
  admitted : s.params.admitted = true
  idle : s.life = .uninitialized → s.own = .none ∧ s.irq = false
  latch : s.slatch.isSome = true → s.params.sampleSkew = true ∧ s.own = .dec
  resetValue : s.own = .ctrl → s.wpend = f0
  decodeValue : s.decoding = true → actionValue s.params.fp (dispatch s.params (tagOf s.sub)) s.acc s.stepReg = some s.wpend
  row : s.life = .initialized → (rowOf s.sub).toNat ≤ 6
  tag : s.life = .initialized → tagOf s.sub = 0#4 ∨ tagOf s.sub = s.params.tagCw ∨ tagOf s.sub = s.params.tagCcw
  programs : agentListsWf s.programs = true

/-- A value the position register may hold: finite and not -0.0 (R65). -/
def positionValue (x : F64) : Bool := isFinite x && x != 0x8000000000000000#64

/-- A value the step register may hold once initialized: positive, normal, at most 360.0 (R15). -/
def stepValue (x : F64) : Bool := !signBit x && decide (1 ≤ expField x) && decide (x.toNat ≤ f360.toNat)

/-- The invariant on numbers (R15, R65): while initialized `ACC` is finite and not -0.0 and `STEP` is positive, normal
and at most 360.0, and so is a pending value fit for `ACC`. It speaks of binary64, the format of this block (R5). -/
structure NumberInv (s : State) : Prop where
  fp : s.params.fp = .binary64
  acc : s.life = .initialized → positionValue s.acc = true
  stepReg : s.life = .initialized → stepValue s.stepReg = true
  wpend : s.own = .ctrl ∨ s.decoding = true → positionValue s.wpend = true
  idle : s.life = .uninitialized → s.own = .none

/-- Two states that agree in everything a run can read: they may differ in `SUB`, `ACC` and `STEP` while uninitialized,
in `WPEND` while no write is pending and in `CALLER` while no controller holds the token (R27). -/
structure SameButUnset (s t : State) : Prop where
  life : s.life = t.life
  own : s.own = t.own
  irq : s.irq = t.irq
  slatch : s.slatch = t.slatch
  faultMarks : s.faultMarks = t.faultMarks
  refusedMarks : s.refusedMarks = t.refusedMarks
  phase : s.phase = t.phase
  params : s.params = t.params
  programs : s.programs = t.programs
  script : s.script = t.script
  returned : s.returned = t.returned
  sched : s.sched = t.sched
  actor : s.actor = t.actor
  inputs : s.inputs = t.inputs
  draws : s.draws = t.draws
  idle : s.life = .uninitialized → s.own = .none
  sub : s.life = .initialized → s.sub = t.sub
  acc : s.life = .initialized → s.acc = t.acc
  stepReg : s.life = .initialized → s.stepReg = t.stepReg
  wpend : s.own = .ctrl ∨ s.decoding = true → s.wpend = t.wpend
  caller : s.own = .ctrl → s.caller = t.caller

/-- Two states that agree in everything but the tag nibble of `SUB` (R12, R25). -/
def SameButTag (s t : State) : Prop := { s with sub := t.sub } = t ∧ rowOf s.sub = rowOf t.sub

/-- The state after `k` steps; every step of this machine has a next state, and a stop would leave it where it is. -/
def stepsFrom (s : State) : Nat → State
  | 0 => s
  | k + 1 =>
    match step s with
    | .next s' => stepsFrom s' k
    | .fault _ => s
    | .refused _ => s

/-- The turns of one `edge`: the environment sets the phase, the decoder begins and, where it tagged, commits
(R45 `edge P`). -/
def edgeTurns : List Turn := [.environment, .decoder, .decoder]

/-- The turns of `n` edges. -/
def edgesTurns : Nat → List Turn
  | 0 => []
  | n + 1 => edgeTurns ++ edgesTurns n

/-- A list of phases repeated `n` times. -/
def repeatPhases (ps : List Phase) : Nat → List Phase
  | 0 => []
  | n + 1 => ps ++ repeatPhases ps n

/-- `f` applied `n` times. -/
def applyTimes (f : F64 → F64) : Nat → F64 → F64
  | 0, x => x
  | n + 1, x => applyTimes f n (f x)

end Sys2Proof.Machine
end

