-- ==== Sys2Proof/Certificates/Slice0/Obligations.lean ====
section
/-! DEFINITION. The statements about the block, from the numbered rules of spec/. Each docstring names the rule it
formalises. Where a conclusion is an equation with a whole record, the fields it does not name are unchanged: the
equation is the frame. -/

open Sys2Proof Sys2Proof.Machine

/-! ### Encoding (spec/30_encoding.md) -/

/-- Words written out from the spec's vectors V-ENC-1, V-ENC-3, V-ENC-4, V-ENC-6 and from R45's encoding column decode
to the operations they stand for. -/
def Obligations.SpecWordsDecode : Prop :=
  decode 0x0000016800050409#64 = .ok (.init 4#8 5#8 360#32) ∧
  decode 0xFFFFFFFF00020109#64 = .ok (.init 1#8 2#8 4294967295#32) ∧
  decode 0x0000000000000001#64 = .ok .initNull ∧
  decode 0x0000000000000002#64 = .ok .deinit ∧
  decode 0x0000000000000003#64 = .ok .get ∧
  decode 0x0000000000000004#64 = .ok .reset

/-- R40, R41, R45: decoding the word of any command, with every operand at every value, gives the command back; the
commands are the operations with a word. -/
def Obligations.DecodeOfEncodeIsTheCommand : Prop :=
  ∀ i : Instr, (i.wf = true ↔ ∃ c, encode i = some c) ∧ ∀ c, encode i = some c → decode c = .ok i

/-- R40, R43: every word that decodes is the word of what it decodes to, so no bit of a word is dropped and no two words
mean the same command. -/
def Obligations.EncodeOfDecodeIsTheWord : Prop :=
  ∀ (c : Command) (i : Instr), decode c = .ok i → encode i = some c

/-- R43: a command word with a reserved operation code is refused as `ReservedCommand`, one with a reserved bit of R40
set as `ReservedBits`; the refusal changes no register but `REFUSED` and returns nothing (the agent's line is over,
notes/assumptions/8.md); every other word is a command. -/
def Obligations.ReservedWordsAreRefused : Prop :=
  ∀ (s : State) (a : Nat) (ts : List Turn) (c : Command) (rest : List Command),
    s.sched = .agent a :: ts → listFor s.programs a = c :: rest →
    let reservedCode := c.extractLsb' 0 3 = 0b000#3 ∨ c.extractLsb' 0 3 = 0b101#3 ∨ c.extractLsb' 0 3 = 0b110#3 ∨
      c.extractLsb' 0 3 = 0b111#3
    let reservedBit :=
      (c.extractLsb' 0 4 = 0b1001#4 ∧ (c.extractLsb' 24 8 ≠ 0#8 ∨ c.extractLsb' 4 4 ≠ 0#4)) ∨
      (c.extractLsb' 0 4 = 0b0001#4 ∧ c.extractLsb' 4 60 ≠ 0#60) ∨
      ((c.extractLsb' 0 3 = 0b010#3 ∨ c.extractLsb' 0 3 = 0b011#3 ∨ c.extractLsb' 0 3 = 0b100#3) ∧
        c.extractLsb' 3 61 ≠ 0#61)
    (reservedCode → step s = .next { s with
      sched := ts, actor := a, programs := setListFor s.programs a rest,
      refusedMarks := { s.refusedMarks with reservedCommand := true } }) ∧
    (reservedBit → step s = .next { s with
      sched := ts, actor := a, programs := setListFor s.programs a rest,
      refusedMarks := { s.refusedMarks with reservedBits := true } }) ∧
    (¬ reservedCode → ¬ reservedBit → ∃ i, decode c = .ok i)

/-- A STEP RUNS THE DECODED OPERATION (R8, R36): the agent whose turn it is runs the command its current word decodes to,
the decoder runs DECODE, the environment sets the next phase of its script; an agent or an environment with nothing
left, and a schedule with no turn left, do nothing. -/
def Obligations.StepRunsTheDecodedOperation : Prop :=
  ∀ s : State,
    (∀ a ts c rest i, s.sched = .agent a :: ts → listFor s.programs a = c :: rest → decode c = .ok i →
      step s = exec i { s with sched := ts, actor := a }) ∧
    (∀ ts, s.sched = .decoder :: ts → step s = exec .isr { s with sched := ts }) ∧
    (∀ ts q qs, s.sched = .environment :: ts → s.script = q :: qs →
      step s = exec (.pins q) { s with sched := ts, script := qs }) ∧
    (∀ a ts, s.sched = .agent a :: ts → listFor s.programs a = [] → step s = .next { s with sched := ts }) ∧
    (∀ ts, s.sched = .environment :: ts → s.script = [] → step s = .next { s with sched := ts }) ∧
    (s.sched = [] → step s = .next s)

/-! ### Parameters (spec/00_scope.md) -/

/-- R5, R7: the values of the parameters for this block, which the power-on state has (`PIN_VALID` stays open): the default
ROM, `HOME` and `TRAP` row 0 (the word INIT stores is 0x00), the tags 0x1 and 0x2, binary64 with its `F(360)`. -/
def Obligations.BlockHasTheDecidedParameters : Prop :=
  let P := State.reset.params
  P.tt = Config.defaultTT ∧ BitVec.ofNat 8 P.home.val = 0x00#8 ∧ P.trap.val = 0 ∧ P.tagCw = 0x1#4 ∧
  P.tagCcw = 0x2#4 ∧ P.readAtomic = false ∧ P.sampleSkew = false ∧ P.fp = .binary64 ∧
  fp360 P.fp = 0x4076800000000000#64 ∧ ∀ (x y : F64) (n : Nat),
    fpAdd P.fp x y = fadd x y ∧ fpSub P.fp x y = fsub x y ∧ fpDiv P.fp x y = fdiv x y ∧ fpOfNat P.fp n = u2f n

/-! ### The lifecycle gate (spec/43_controller.md) -/

/-- R73: a valid INIT whose binding succeeds commits: `STEP`, `ACC`, `SUB` (row `HOME`, no tag), `IRQ`, `LIFE` as the rule
says, status `Ok`, and nothing else changes. That bit 32 clear of the free input is the draw `Ok` of BIND, and how the draw
is used up, are the model's choice, notes/assumptions/6.md; that a `HOME` other than 0 is stored too, 18.md. -/
def Obligations.InitCommits : Prop :=
  ∀ (pinA pinB : PinId) (pulses : Pulses) (s : State),
    s.own = .none → s.life = .uninitialized → pinA ≠ pinB → pinA ∈ s.params.validPins → pinB ∈ s.params.validPins →
    pulses ≠ 0#32 → s.drawn.getLsbD 32 = false →
    exec (.init pinA pinB pulses) s = .next { s with
      stepReg := fpDiv s.params.fp (fp360 s.params.fp) (fpOfNat s.params.fp pulses.toNat),
      acc := 0x0000000000000000#64, sub := BitVec.ofNat 8 s.params.home.val, irq := false, life := .initialized, returned := s.returned ++ [(s.actor, .ok)], programs := nextPrograms s,
      inputs := s.inputs.tail, draws := if s.inputs.isEmpty then s.draws + 1 else s.draws }

/-- R72: a binding failure returns the collaborator's code and leaves every register as it was. That bit 32 set of the free
input is the draw `PlatformError` of BIND with code `[31:0]`, and how the draw is used up, are the model's choice,
notes/assumptions/6.md. -/
def Obligations.InitBindingFailureChangesNothing : Prop :=
  ∀ (pinA pinB : PinId) (pulses : Pulses) (s : State),
    s.own = .none → s.life = .uninitialized → pinA ≠ pinB → pinA ∈ s.params.validPins → pinB ∈ s.params.validPins →
    pulses ≠ 0#32 → s.drawn.getLsbD 32 = true →
    exec (.init pinA pinB pulses) s = .next { s with
      returned := s.returned ++ [(s.actor, .platformError (s.drawn.extractLsb' 0 32))], programs := nextPrograms s,
      inputs := s.inputs.tail, draws := if s.inputs.isEmpty then s.draws + 1 else s.draws }

/-- R70: INIT returns `InvalidArgument` and changes nothing, not even drawing a binding outcome, when the configuration
is null, the pins are equal, a pin id is out of range or the pulse count is 0. -/
def Obligations.InitRejectsInvalidConfigurations : Prop :=
  ∀ s : State, s.own = .none → s.life = .uninitialized →
    (exec .initNull s = .next { s with
      returned := s.returned ++ [(s.actor, .invalidArgument)], programs := nextPrograms s }) ∧
    ∀ (pinA pinB : PinId) (pulses : Pulses),
      pinA = pinB ∨ pinA ∉ s.params.validPins ∨ pinB ∉ s.params.validPins ∨ pulses = 0#32 →
      exec (.init pinA pinB pulses) s = .next { s with
        returned := s.returned ++ [(s.actor, .invalidArgument)], programs := nextPrograms s }

/-- R74, R81: INIT while initialized, with a configuration or without, is refused: `REFUSED` holds
`InitWhileInitialized`, no register changes, nothing is returned (the line is over, notes/assumptions/8.md). -/
def Obligations.InitWhileInitializedIsRefused : Prop :=
  ∀ (pinA pinB : PinId) (pulses : Pulses) (s : State), s.own = .none → s.life = .initialized →
    exec (.init pinA pinB pulses) s = .next { s with
      refusedMarks := { s.refusedMarks with initWhileInitialized := true }, programs := nextPrograms s } ∧
    exec .initNull s = .next { s with
      refusedMarks := { s.refusedMarks with initWhileInitialized := true }, programs := nextPrograms s }

/-- R92: the state after a successful INIT, in full, from any state that meets the token invariant (a `HOME` other than 0
as notes/assumptions/18.md reads it). -/
def Obligations.StateAfterInitInFull : Prop :=
  ∀ (pinA pinB : PinId) (pulses : Pulses) (s t : State), TokenInv s →
    exec (.init pinA pinB pulses) s = .next t → t.returned = s.returned ++ [(s.actor, .ok)] →
    t.life = .initialized ∧ t.sub = BitVec.ofNat 8 s.params.home.val ∧ t.acc = 0x0000000000000000#64 ∧
    t.stepReg = fpDiv s.params.fp (fp360 s.params.fp) (fpOfNat s.params.fp pulses.toNat) ∧ t.own = .none ∧ t.irq = false ∧ t.slatch = none ∧
    t.faultMarks = s.faultMarks ∧ t.refusedMarks = s.refusedMarks

/-- R76: DEINIT returns `Failed` while uninitialized; else it waits for the token, then clears `IRQ` and `LIFE` and
returns `Ok`. That waiting is a next state in which nothing changes is the model's reading, notes/assumptions/5.md. -/
def Obligations.DeinitUnbinds : Prop :=
  ∀ s : State,
    (s.life = .initialized → s.own = .none →
      exec .deinit s = .next { s with
        irq := false, life := .uninitialized, returned := s.returned ++ [(s.actor, .ok)],
        programs := nextPrograms s }) ∧
    (s.life = .uninitialized →
      exec .deinit s = .next { s with
        returned := s.returned ++ [(s.actor, .failed)], programs := nextPrograms s }) ∧
    (s.life = .initialized → s.own ≠ .none → exec .deinit s = .next s)

/-! ### The read gate and the reset gate (spec/42_position_access.md) -/

/-- R64: GET, its four cases: `NotInitialized`; `ACC` with no write in flight; a drawn pattern while a write is in
flight; with `READ_ATOMIC`, one of the old and the new value (which one, the draw says: notes/assumptions/6.md). It writes
no register. And for every pattern there is a free input with which a racing GET returns it. -/
def Obligations.GetReturnsThePosition : Prop :=
  ∀ s : State,
    let drawUsed : State := { s with
      inputs := s.inputs.tail, draws := if s.inputs.isEmpty then s.draws + 1 else s.draws,
      programs := nextPrograms s }
    (s.life = .uninitialized → exec .get s = .next { s with
      returned := s.returned ++ [(s.actor, .notInitialized)], programs := nextPrograms s }) ∧
    (s.life = .initialized → s.own = .none → exec .get s = .next { s with
      returned := s.returned ++ [(s.actor, .okValue s.acc)], programs := nextPrograms s }) ∧
    (s.life = .initialized → s.own ≠ .none → s.params.readAtomic = false → exec .get s = .next { drawUsed with
      returned := s.returned ++ [(s.actor, .okValue s.drawn)] }) ∧
    (s.life = .initialized → s.own ≠ .none → s.params.readAtomic = true → exec .get s = .next { drawUsed with
      returned := s.returned ++ [(s.actor, .okValue (if s.drawn.getLsbD 0 then s.wpend else s.acc))] }) ∧
    (∀ v : F64, s.life = .initialized → s.own ≠ .none → s.params.readAtomic = false →
      exec .get { s with inputs := v :: s.inputs } = .next { s with
        returned := s.returned ++ [(s.actor, .okValue v)], programs := nextPrograms s })

/-- R66: RESET_BEGIN: `NotInitialized` while uninitialized, held while the token is taken, else it takes the token for
the acting controller with +0.0 pending. That a held step is a next state in which nothing changes is the model's reading,
notes/assumptions/5.md. -/
def Obligations.ResetBeginTakesTheToken : Prop :=
  ∀ s : State, ¬ (s.own = .ctrl ∧ s.caller = s.actor) →
    (s.life = .uninitialized → exec .reset s = .next { s with
      returned := s.returned ++ [(s.actor, .notInitialized)], programs := nextPrograms s }) ∧
    (s.life = .initialized → s.own ≠ .none → exec .reset s = .next s) ∧
    (s.life = .initialized → s.own = .none → exec .reset s = .next { s with
      own := .ctrl, caller := s.actor, wpend := 0x0000000000000000#64 })

/-- R67: RESET_COMMIT, by the controller that began the reset: the pending value is stored, the token freed, `Ok`
returned. -/
def Obligations.ResetCommitStoresAndFrees : Prop :=
  ∀ s : State, s.own = .ctrl → s.caller = s.actor →
    exec .reset s = .next { s with
      acc := s.wpend, own := .none, returned := s.returned ++ [(s.actor, .ok)], programs := nextPrograms s }

/-- R68: a whole RESET, its two steps one after the other, sets `ACC` to +0.0 from any value and keeps the decoder's
place, `STEP`, `IRQ` and `LIFE`. -/
def Obligations.ResetWritesOnlyThePosition : Prop :=
  ∀ s : State, s.life = .initialized → s.own = .none →
    ∃ t, exec .reset s = .next t ∧ exec .reset t = .next { s with
      acc := 0x0000000000000000#64, caller := s.actor, wpend := 0x0000000000000000#64,
      returned := s.returned ++ [(s.actor, .ok)], programs := nextPrograms s }

/-- R29: the two words of a split 64-bit read, word 1 above word 0, are the value. -/
def Obligations.PortWordsJoinToTheValue : Prop :=
  ∀ v : F64, portWord v 0 = v.extractLsb' 0 32 ∧ portWord v 1 = v.extractLsb' 32 32 ∧ portWord v 1 ++ portWord v 0 = v

/-! ### The edge decoder (spec/41_edge_decoder.md) -/

/-- R54: PIN_SET sets `PHASE`, and `IRQ` when the phase changes while initialized; nothing else. -/
def Obligations.PinSetLatchesEdges : Prop :=
  ∀ (q : Phase) (s : State),
    (q ≠ s.phase → s.life = .initialized → exec (.pins q) s = .next { s with irq := true, phase := q }) ∧
    (q = s.phase ∨ s.life = .uninitialized → exec (.pins q) s = .next { s with phase := q })

/-- R55, R46: DEC_BEGIN with one sample, for every looked-up word: the word goes to `SUB`; a CW tag starts the write of
`fadd(ACC, STEP)`, a CCW tag that of `fsub(ACC, STEP)`, any other ends the decode; for every choice of the tags. -/
def Obligations.DecodeBeginDispatchesTheTag : Prop :=
  ∀ (s : State) (r : Fin 7), s.params.sampleSkew = false → s.irq = true → s.life = .initialized → s.own = .none →
    (s.sub.extractLsb' 0 4).toNat = r.val →
    let w := s.params.tt.word r s.phase
    (w.extractLsb' 4 4 = s.params.tagCw → exec .isr s = .next { s with
      irq := false, sub := w, wpend := fpAdd s.params.fp s.acc s.stepReg, own := .dec }) ∧
    (w.extractLsb' 4 4 ≠ s.params.tagCw → w.extractLsb' 4 4 = s.params.tagCcw → exec .isr s = .next { s with
      irq := false, sub := w, wpend := fpSub s.params.fp s.acc s.stepReg, own := .dec }) ∧
    (w.extractLsb' 4 4 ≠ s.params.tagCw → w.extractLsb' 4 4 ≠ s.params.tagCcw → exec .isr s = .next { s with irq := false, sub := w })

/-- R56: DEC_COMMIT stores the pending value and frees the token. -/
def Obligations.DecodeCommitStoresAndFrees : Prop :=
  ∀ s : State, s.own = .dec → s.params.sampleSkew = false ∨ s.slatch = none →
    exec .isr s = .next { s with acc := s.wpend, own := .none }

/-- R57: with `SAMPLE_SKEW`, DEC_SAMPLE takes the token and latches the level of the input drawn first, and the skewed
DEC_BEGIN decodes the latched bit with the other bit of the present phase, freeing the token when there is no tag (for a
row of 0 to 6; rows of 7 to 15 are in `BadRowIsMarked`). Which input bit 0 of the free input names, and how the draw is used
up, are the model's choice, notes/assumptions/6.md; that the decoder takes the skewed DEC_BEGIN and not DEC_COMMIT while a
sample is latched is its reading of R36 and R59, notes/assumptions/13.md. -/
def Obligations.SkewedSamplesAreJoined : Prop :=
  ∀ s : State, s.params.sampleSkew = true → s.life = .initialized →
    (s.irq = true → s.own = .none → s.slatch = none → exec .isr s = .next { s with
      irq := false, own := .dec, inputs := s.inputs.tail,
      draws := if s.inputs.isEmpty then s.draws + 1 else s.draws,
      slatch := if s.drawn.getLsbD 0 then some (.b, s.phase.getLsbD 1) else some (.a, s.phase.getLsbD 0) }) ∧
    ∀ (first : PhaseBit) (level : Bool) (p : Phase) (r : Fin 7), s.own = .dec → s.slatch = some (first, level) →
      (first = .a → p.getLsbD 0 = level ∧ p.getLsbD 1 = s.phase.getLsbD 1) →
      (first = .b → p.getLsbD 1 = level ∧ p.getLsbD 0 = s.phase.getLsbD 0) →
      (s.sub.extractLsb' 0 4).toNat = r.val →
      let w := s.params.tt.word r p
      (w.extractLsb' 4 4 = s.params.tagCw → exec .isr s = .next { s with
        slatch := none, sub := w, wpend := fpAdd s.params.fp s.acc s.stepReg }) ∧
      (w.extractLsb' 4 4 ≠ s.params.tagCw → w.extractLsb' 4 4 = s.params.tagCcw → exec .isr s = .next { s with
        slatch := none, sub := w, wpend := fpSub s.params.fp s.acc s.stepReg }) ∧
      (w.extractLsb' 4 4 ≠ s.params.tagCw → w.extractLsb' 4 4 ≠ s.params.tagCcw → exec .isr s = .next { s with
        slatch := none, sub := w, own := .none })

/-- R55, R57, R33: the decoder holds, and nothing changes, while no edge is pending, while the block is uninitialized,
while a controller has the token, and (skewed) while a sample is latched without the token. That a hold is a next state in
which nothing changes is the model's reading, notes/assumptions/5.md. -/
def Obligations.DecoderHoldsUntilReady : Prop :=
  ∀ s : State, s.own ≠ .dec →
    s.irq = false ∨ s.life = .uninitialized ∨ s.own = .ctrl ∨ (s.params.sampleSkew = true ∧ s.slatch ≠ none) →
    exec .isr s = .next s

/-- R46, R55, R57, R80: a decode that meets a row of 7 to 15 marks `BadRow` in `FAULT`, with one sample and, at the skewed
DEC_BEGIN, with two. That the step does nothing else is the model's reading, notes/assumptions/7.md; that the decoder takes
the skewed DEC_BEGIN while a sample is latched, 13.md. -/
def Obligations.BadRowIsMarked : Prop :=
  ∀ s : State, 6 < (s.sub.extractLsb' 0 4).toNat →
    (s.params.sampleSkew = false → s.irq = true → s.life = .initialized → s.own = .none →
      exec .isr s = .next { s with faultMarks := ⟨true⟩ }) ∧
    (s.params.sampleSkew = true → s.own = .dec → s.slatch ≠ none →
      exec .isr s = .next { s with faultMarks := ⟨true⟩ })

/-- R46, R39: LOOKUP gives the word of row `sub[3:0]` and column `p`, none for a row of 7 to 15, and the stale tag never
affects it. -/
def Obligations.LookupUsesTheRowOnly : Prop :=
  ∀ (t : Rom) (sub : RomWord) (p : Phase),
    (6 < (sub &&& 0x0F#8).toNat → lookup t sub p = none) ∧
    (∀ r : Fin 7, (sub &&& 0x0F#8).toNat = r.val → lookup t sub p = some (t.word r p)) ∧
    ∀ tag : Nibble, lookup t (tag ++ sub.extractLsb' 0 4) p = lookup t sub p

/-- R58: the action of every tag, for every choice of the two tags (the first check first) and for this block's. -/
def Obligations.DispatchChoosesTheAction : Prop :=
  (∀ (P : Params) (t : Nibble),
    (t = P.tagCw → dispatch P t = .plus) ∧ (t ≠ P.tagCw → t = P.tagCcw → dispatch P t = .minus) ∧
    (t ≠ P.tagCw → t ≠ P.tagCcw → dispatch P t = .none)) ∧
  dispatch Config.blockParams 0x1#4 = .plus ∧ dispatch Config.blockParams 0x2#4 = .minus ∧
  ∀ t : Nibble, t ≠ 0x1#4 → t ≠ 0x2#4 → dispatch Config.blockParams t = .none

/-- R62: a decode is bounded: from every state of the token invariant with an edge pending, three turns of the decoder
end the decode, with the token free, the edge consumed and `ACC` changed by at most the one rounded step of the tag
stored. -/
def Obligations.DecodeEndsWithinThreeTurns : Prop :=
  ∀ (s : State) (ts : List Turn), TokenInv s → s.life = .initialized → s.irq = true → s.own = .none →
    s.sched = .decoder :: .decoder :: .decoder :: ts →
    let t := stepsFrom s 3
    t.own = .none ∧ t.irq = false ∧ t.slatch = none ∧ t.sched = ts ∧ t.faultMarks = s.faultMarks ∧
    (t.acc = fpAdd s.params.fp s.acc s.stepReg ∧ t.sub.extractLsb' 4 4 = s.params.tagCw ∨
      t.acc = fpSub s.params.fp s.acc s.stepReg ∧ t.sub.extractLsb' 4 4 = s.params.tagCcw ∨
      t.acc = s.acc ∧ t.sub.extractLsb' 4 4 = 0x0#4)

/-! ### The transition ROM (spec/40_transition_rom.md) -/

/-- R47, R53 (a): the default table is admitted (it meets R48 to R52), and `Reach` is computed as the ten configurations
the spec lists. -/
def Obligations.DefaultTableIsAdmitted : Prop :=
  Config.blockParams.admitted = true ∧
  Config.blockParams.reachable =
    [(0, 0#2), (0, 1#2), (0, 2#2), (0, 3#2), (1, 2#2), (2, 1#2), (3, 0#2), (4, 2#2), (5, 1#2), (6, 0#2)]

/-- R53 (b) to (f), of the default table: repeating a reading changes nothing; column 3 leads home; the only two tagged
cells; the double-bit readings of `(HOME, 1)` and `(HOME, 2)`; and from every mid-cycle configuration the tags of the
four edges on in either direction. -/
def Obligations.DefaultTableDerivedProperties : Prop :=
  let t := Config.defaultTT
  let cw : Nibble := 0x1#4
  let ccw : Nibble := 0x2#4
  (∀ c ∈ Config.blockParams.reachable, c.1 ≠ 0 ∨ c.2 = 3#2 → (t.word c.1 c.2).toNat = c.1.val) ∧
  (∀ r : Fin 7, (t.word r 3#2).extractLsb' 0 4 = 0#4) ∧
  (∀ (r : Fin 7) (p : Phase), Rom.tagOfWord (t.word r p) ≠ 0#4 ↔ (r, p) = (1, 3#2) ∨ (r, p) = (5, 3#2)) ∧
  t.word 1 3#2 = 0x10#8 ∧ t.word 5 3#2 = 0x20#8 ∧ t.word 0 2#2 = 0x04#8 ∧ t.word 0 1#2 = 0x02#8 ∧
  (t.pathTags 1 [3#2, 1#2, 0#2, 2#2] = [cw, 0, 0, 0] ∧ t.pathTags 1 [0#2, 1#2, 3#2, 2#2] = [0, 0, 0, 0]) ∧
  (t.pathTags 2 [0#2, 2#2, 3#2, 1#2] = [0, 0, cw, 0] ∧ t.pathTags 2 [3#2, 2#2, 0#2, 1#2] = [0, 0, 0, 0]) ∧
  (t.pathTags 3 [2#2, 3#2, 1#2, 0#2] = [0, cw, 0, 0] ∧ t.pathTags 3 [1#2, 3#2, 2#2, 0#2] = [0, 0, 0, 0]) ∧
  (t.pathTags 4 [3#2, 1#2, 0#2, 2#2] = [0, 0, 0, 0] ∧ t.pathTags 4 [0#2, 1#2, 3#2, 2#2] = [0, 0, ccw, 0]) ∧
  (t.pathTags 5 [0#2, 2#2, 3#2, 1#2] = [0, 0, 0, 0] ∧ t.pathTags 5 [3#2, 2#2, 0#2, 1#2] = [ccw, 0, 0, 0]) ∧
  (t.pathTags 6 [2#2, 3#2, 1#2, 0#2] = [0, 0, 0, 0] ∧ t.pathTags 6 [1#2, 3#2, 2#2, 0#2] = [0, ccw, 0, 0])

/-- R51, R52: of every admitted table, from every configuration of `Reach` as the spec defines it: no double-bit reading
tags; from a row other than `HOME` that one phase only enters (over `Reach`, notes/assumptions/12.md) it leads to `TRAP`;
and after one lookup for phase 3 both full cycles tag exactly once, at their end. -/
def Obligations.AdmittedTablesTagAndRecover : Prop :=
  ∀ (P : Params) (r : Fin 7) (p : Phase), P.admitted = true → P.Reach (r, p) →
    (∀ q, doubleBit p q = true → Rom.tagOfWord (P.tt.word r q) = 0#4) ∧
    (r ≠ P.home → (∀ q, P.Reach (r, q) → q = p) →
      ∀ q, doubleBit p q = true → ((P.tt.word r q).extractLsb' 0 4).toNat = P.trap.val) ∧
    ∃ r', Rom.rowOfWord (P.tt.word r 3#2) = some r' ∧
      P.tt.pathTags r' [1#2, 0#2, 2#2, 3#2] = [0#4, 0#4, 0#4, P.tagCw] ∧
      P.tt.pathTags r' [2#2, 0#2, 1#2, 3#2] = [0#4, 0#4, 0#4, P.tagCcw]

/-- R51 on the machine: in a configuration of `Reach`, a decode of a double-bit change stores its word, starts no write
and leaves `ACC` alone. -/
def Obligations.DoubleBitTransitionNeverCounts : Prop :=
  ∀ (s : State) (r : Fin 7) (p : Phase), s.params.admitted = true → s.params.sampleSkew = false →
    s.irq = true → s.life = .initialized → s.own = .none → (s.sub.extractLsb' 0 4).toNat = r.val →
    s.params.Reach (r, p) → doubleBit p s.phase = true →
    exec .isr s = .next { s with irq := false, sub := s.params.tt.word r s.phase }

/-- R50: for every admitted table and every `n`, `n` clockwise full cycles from `(HOME, 3)` add `STEP` `n` times, each
sum rounded, `n` counter-clockwise ones subtract it `n` times, and the decoder is back in `(HOME, 3)`, idle, with every
other register but `WPEND` as it was. -/
def Obligations.FullCyclesApplyOneTagEach : Prop :=
  ∀ (n : Nat) (s : State) (ts : List Turn) (qs : List Phase), s.params.admitted = true →
    s.params.sampleSkew = false → s.life = .initialized → s.own = .none → s.irq = false →
    (rowOf s.sub).toNat = s.params.home.val → s.phase = 3#2 → s.sched = edgesTurns (4 * n) ++ ts →
    (s.script = repeatPhases [1#2, 0#2, 2#2, 3#2] n ++ qs →
      ∃ sub wpend, (rowOf sub).toNat = s.params.home.val ∧ stepsFrom s (12 * n) = { s with
        acc := applyTimes (fun x => fpAdd s.params.fp x s.stepReg) n s.acc, sub := sub, wpend := wpend, sched := ts,
        script := qs }) ∧
    (s.script = repeatPhases [2#2, 0#2, 1#2, 3#2] n ++ qs →
      ∃ sub wpend, (rowOf sub).toNat = s.params.home.val ∧ stepsFrom s (12 * n) = { s with
        acc := applyTimes (fun x => fpSub s.params.fp x s.stepReg) n s.acc, sub := sub, wpend := wpend, sched := ts,
        script := qs })

/-! ### Whole-machine rules -/

/-- R35, R5: no step writes the ROM, nor any other option of the block. -/
def Obligations.RomIsImmutable : Prop :=
  ∀ s t : State, step s = .next t → t.params = s.params

/-- R23: no step removes a reason from `FAULT` or `REFUSED`. -/
def Obligations.MarksAreSticky : Prop :=
  ∀ s t : State, step s = .next t →
    (s.faultMarks.badRow = true → t.faultMarks.badRow = true) ∧
    ∀ r : RefuseReason, s.refusedMarks.has r = true → t.refusedMarks.has r = true

/-- R14: every write to `ACC` is one rounded addition of `STEP` for a CW tag, one rounded subtraction for a CCW tag, or
+0.0 (of a reset or an INIT), from every state of the token invariant. -/
def Obligations.EveryPositionWriteIsAStepOrZero : Prop :=
  ∀ s t : State, TokenInv s → step s = .next t → t.acc ≠ s.acc →
    (s.sched.head? = some .decoder ∧ s.own = .dec ∧ t.own = .none ∧
      (s.sub.extractLsb' 4 4 = s.params.tagCw ∧ t.acc = fpAdd s.params.fp s.acc s.stepReg ∨
        s.sub.extractLsb' 4 4 = s.params.tagCcw ∧ t.acc = fpSub s.params.fp s.acc s.stepReg)) ∨
    (s.sched.head? = some (.agent s.caller) ∧ s.own = .ctrl ∧ t.own = .none ∧ t.acc = 0x0000000000000000#64) ∨
    (s.life = .uninitialized ∧ t.life = .initialized ∧ t.acc = 0x0000000000000000#64)

/-- R15, R16: only INIT sets `LIFE` to 1 and only DEINIT sets it to 0, and `STEP` changes only in the INIT that derives
it from its pulse count. -/
def Obligations.OnlyInitAndDeinitChangeTheLifecycle : Prop :=
  ∀ s t : State, step s = .next t →
    (s.life = .uninitialized → t.life = .initialized →
      ∃ a ts c rest pinA pinB pulses, s.sched = .agent a :: ts ∧ listFor s.programs a = c :: rest ∧
        decode c = .ok (.init pinA pinB pulses) ∧
        t.stepReg = fpDiv s.params.fp (fp360 s.params.fp) (fpOfNat s.params.fp pulses.toNat)) ∧
    (s.life = .initialized → t.life = .uninitialized →
      ∃ a ts c rest, s.sched = .agent a :: ts ∧ listFor s.programs a = c :: rest ∧ decode c = .ok .deinit) ∧
    (t.stepReg ≠ s.stepReg → s.life = .uninitialized ∧ t.life = .initialized)

/-- R33, R56, R67: while the token is taken, a step of anyone but its holder leaves `SUB`, `ACC`, `STEP`, `LIFE`,
`OWN`, `WPEND` and `CALLER` as they are: the decoder is the holder of `DEC`, the calling controller of `CTRL`. -/
def Obligations.TokenExcludesOtherWriters : Prop :=
  ∀ s t : State, step s = .next t →
    (s.own = .dec ∧ s.sched.head? ≠ some .decoder) ∨ (s.own = .ctrl ∧ s.sched.head? ≠ some (.agent s.caller)) →
    t.sub = s.sub ∧ t.acc = s.acc ∧ t.stepReg = s.stepReg ∧ t.life = s.life ∧ t.own = s.own ∧ t.wpend = s.wpend ∧
    t.caller = s.caller

/-- R34 (a): once a reset has left +0.0 in `ACC`, it stays until a decode commits or an INIT (which stores +0.0 too): a
step that is not the commit of a begun decode keeps it. -/
def Obligations.ZeroStaysUntilADecodeCommits : Prop :=
  ∀ s t : State, TokenInv s → s.acc = 0x0000000000000000#64 → step s = .next t →
    ¬ (s.decoding = true ∧ s.sched.head? = some .decoder) → t.acc = 0x0000000000000000#64

/-- R33, R83, R95: a pending edge stays latched until the decoder starts on it, or the lifecycle changes. -/
def Obligations.PendingEdgeIsNotLost : Prop :=
  ∀ s t : State, step s = .next t → s.irq = true → t.irq = false →
    (s.sched.head? = some .decoder ∧ s.life = .initialized ∧ s.own = .none) ∨ t.life ≠ s.life

/-- R42, R61: a step returns at most one status, to the agent whose turn it is, with a code of 0 to 4, and ends that
agent's line; the decoder and the environment return none. -/
def Obligations.StatusGoesToTheIssuer : Prop :=
  ∀ s t : State, step s = .next t → t.returned ≠ s.returned →
    ∃ a ts c rest st, s.sched = .agent a :: ts ∧ listFor s.programs a = c :: rest ∧
      t.returned = s.returned ++ [(a, st)] ∧ st.code.toNat ≤ 4 ∧ t.programs = setListFor s.programs a rest

/-- R79: a command that returns a status other than `Ok` changes no register: errors are precise. -/
def Obligations.ErrorsArePrecise : Prop :=
  ∀ (s t : State) (i : Instr) (st : Status), exec i s = .next t → t.returned = s.returned ++ [(s.actor, st)] →
    st.code ≠ 0#3 →
    t.sub = s.sub ∧ t.acc = s.acc ∧ t.stepReg = s.stepReg ∧ t.life = s.life ∧ t.own = s.own ∧ t.wpend = s.wpend ∧
    t.caller = s.caller ∧ t.irq = s.irq ∧ t.slatch = s.slatch ∧ t.phase = s.phase ∧ t.faultMarks = s.faultMarks ∧
    t.refusedMarks = s.refusedMarks ∧ t.params = s.params

/-- R32, R61, R68, R69, R76 (frames): what each operation leaves alone whatever its outcome. A command leaves `PHASE`,
`SLATCH`, `FAULT` and the environment's script; `init` writes `SUB`, `ACC`, `STEP`, `IRQ`, `LIFE` and `REFUSED` at most, so
it keeps `OWN`, `WPEND` and `CALLER`; `init null` writes `REFUSED` at most; `get` writes no register at all; `reset` and `deinit` keep `SUB` and
`STEP`; `isr` keeps `LIFE`, `STEP`, `CALLER`, `REFUSED`, every program and everything returned; `pins` writes `IRQ` and
`PHASE` only. -/
def Obligations.OperationFrames : Prop :=
  ∀ (i : Instr) (s t : State), exec i s = .next t →
    t.params = s.params ∧ t.script = s.script ∧ t.sched = s.sched ∧ t.actor = s.actor ∧
    (i.isCommand = true → t.phase = s.phase ∧ t.slatch = s.slatch ∧ t.faultMarks = s.faultMarks) ∧
    (∀ pinA pinB pulses, i = .init pinA pinB pulses → { t with
      sub := s.sub, acc := s.acc, stepReg := s.stepReg, irq := s.irq, life := s.life, refusedMarks := s.refusedMarks,
      returned := s.returned, programs := s.programs, inputs := s.inputs, draws := s.draws } = s) ∧
    (i = .initNull → { t with
      refusedMarks := s.refusedMarks, returned := s.returned, programs := s.programs } = s) ∧
    (i = .get → { t with returned := s.returned, programs := s.programs, inputs := s.inputs, draws := s.draws } = s) ∧
    (i = .reset → { t with
      acc := s.acc, own := s.own, caller := s.caller, wpend := s.wpend, returned := s.returned,
      programs := s.programs } = s) ∧
    (i = .deinit → { t with irq := s.irq, life := s.life, returned := s.returned, programs := s.programs } = s) ∧
    (i = .isr → { t with
      sub := s.sub, acc := s.acc, own := s.own, wpend := s.wpend, irq := s.irq, slatch := s.slatch,
      faultMarks := s.faultMarks, inputs := s.inputs, draws := s.draws } = s) ∧
    (∀ q, i = .pins q → { t with irq := s.irq, phase := s.phase } = s)

/-- R8 (b), R33: an operation that is not enabled holds: its step changes nothing and the command stays the agent's
current line (notes/assumptions/5.md). -/
def Obligations.DisabledOperationHolds : Prop :=
  ∀ (i : Instr) (s : State), enabled i s = false → exec i s = .next s

/-- R100: in a final state the run has ended: whoever's turn it is, nothing changes but the turn used up. -/
def Obligations.FinalStateIsQuiescent : Prop :=
  ∀ s : State, s.final = true → step s = .next { s with sched := s.sched.tail }

/-- R100: two runs have the same observation exactly when each agent was told the same, in its own order, and `LIFE`, `ACC`,
`SUB` and `STEP` end the same: nothing of the order across agents is observed. -/
def Obligations.ObservationIsPerAgent : Prop :=
  ∀ s t : State, s.observe = t.observe ↔
    (∀ a : Nat, s.toldTo a = t.toldTo a) ∧ s.life = t.life ∧ s.acc = t.acc ∧ s.sub = t.sub ∧ s.stepReg = t.stepReg

/-! ### Invariants -/

/-- R12, R17, R18, R44, R63: every step keeps the token and lifecycle invariant. -/
def Obligations.TokenInvariantIsKept : Prop :=
  ∀ s t : State, TokenInv s → step s = .next t → TokenInv t

/-- R27, R91: the state after power-on meets the token and lifecycle invariant. -/
def Obligations.TokenInvariantAtReset : Prop := TokenInv State.reset

/-- R61, R80: from a state of the token invariant no step marks `BadRow`: with an admitted table the fault is never
reached. -/
def Obligations.BadRowIsUnreachable : Prop :=
  ∀ s t : State, TokenInv s → step s = .next t → t.faultMarks = s.faultMarks

/-- R15, R65: every step keeps `ACC` finite and not -0.0, and `STEP` positive, normal and at most 360.0. -/
def Obligations.NumberInvariantIsKept : Prop :=
  ∀ s t : State, NumberInv s → step s = .next t → NumberInv t

/-- The state after power-on meets the number invariant (it speaks of initialized states and of writes in flight, so no
chosen reset value enters). -/
def Obligations.NumberInvariantAtReset : Prop := NumberInv State.reset

/-- R27: `SUB`, `ACC`, `STEP`, `WPEND` and `CALLER` are never read before they are written: two states that differ only in
such unset registers step alike and return alike. (A block with both `SAMPLE_SKEW` and `READ_ATOMIC` is left out: there
R64 lets a GET between the two samples draw a stale `WPEND`, notes/assumptions/14.md.) -/
def Obligations.UnsetRegistersAreNeverSeen : Prop :=
  ∀ s t s' : State, SameButUnset s t → s.params.readAtomic = false ∨ s.params.sampleSkew = false →
    step s = .next s' → ∃ t', step t = .next t' ∧ SameButUnset s' t'

/-- R25: the tag nibble of `SUB` is read by nothing after the step that wrote it: two states that differ only in it step
alike. -/
def Obligations.StaleTagIsNeverRead : Prop :=
  ∀ s t s' : State, SameButTag s t → step s = .next s' → ∃ t', step t = .next t' ∧ SameButTag s' t'

/-! ### Arithmetic (R7) -/

/-- R7: `fadd` and `fsub` are correctly rounded: for finite operands whose exact sum `x` (in units of 2^-1074) is below
the overflow threshold, the result is finite, no finite binary64 number is nearer to the exact value, and of two equally
near ones the result's last fraction bit is 0. -/
def Obligations.SumsAreCorrectlyRounded : Prop :=
  ∀ x y : F64, isFinite x = true → isFinite y = true →
    (let e := units x + units y
     e.natAbs < (2 ^ 54 - 1) * 2 ^ 2044 →
      isFinite (fadd x y) = true ∧ ∀ z : F64, isFinite z = true →
        (units (fadd x y) - e).natAbs ≤ (units z - e).natAbs ∧
        ((units (fadd x y) - e).natAbs = (units z - e).natAbs → units z ≠ units (fadd x y) →
          (fadd x y).getLsbD 0 = false)) ∧
    (let e := units x - units y
     e.natAbs < (2 ^ 54 - 1) * 2 ^ 2044 →
      isFinite (fsub x y) = true ∧ ∀ z : F64, isFinite z = true →
        (units (fsub x y) - e).natAbs ≤ (units z - e).natAbs ∧
        ((units (fsub x y) - e).natAbs = (units z - e).natAbs → units z ≠ units (fsub x y) →
          (fsub x y).getLsbD 0 = false))

/-- R7, R15, R73: `u2f` of a 32-bit count is exact, and the `STEP` of a pulse count is the binary64 number nearest to
360 / pulses (both sides multiplied by the count, in units of 2^-1074), ties to even. -/
def Obligations.StepIsTheCorrectlyRoundedQuotient : Prop :=
  ∀ pulses : Pulses, pulses ≠ 0#32 →
    units (u2f pulses.toNat) = (pulses.toNat : Int) * 2 ^ 1074 ∧
    ∀ z : F64, isFinite z = true →
      let e : Int := 360 * 2 ^ 1074
      let n : Int := pulses.toNat
      let result := fdiv 0x4076800000000000#64 (u2f pulses.toNat)
      (units result * n - e).natAbs ≤ (units z * n - e).natAbs ∧
      ((units result * n - e).natAbs = (units z * n - e).natAbs → units z ≠ units result →
        result.getLsbD 0 = false)

/-- R15: the `STEP` of every pulse count that INIT accepts is positive, finite, normal and at most 360.0. -/
def Obligations.StepIsPositiveNormalAtMost360 : Prop :=
  ∀ pulses : Pulses, pulses ≠ 0#32 →
    let x := fdiv 0x4076800000000000#64 (u2f pulses.toNat)
    x.getLsbD 63 = false ∧ 1 ≤ (x.extractLsb' 52 11).toNat ∧ (x.extractLsb' 52 11).toNat < 2047 ∧
    x.toNat ≤ 0x4076800000000000
end

