-- ==== Sys2Proof/Laws/Binary64.lean ====
section
/-! SUPPORT. The binary64 patterns as numbers: the fields of a packed pattern, the magnitude a magnitude pattern stands
for and that it grows with the pattern, and that `roundMag` gives the nearest one, ties to even (R7). Statements about
`fadd`, `fsub`, `fdiv` and `u2f` go through `roundMag_nearest`. -/

namespace Sys2Proof.Machine

/-- The magnitude, in units of 2^-1074, of the number with magnitude pattern `m` (exponent and fraction as one number). -/
def magOf (m : Nat) : Nat :=
  if m / 2 ^ 52 = 0 then m % 2 ^ 52 else (2 ^ 52 + m % 2 ^ 52) * 2 ^ (m / 2 ^ 52 - 1)

theorem expField_eq (x : F64) : expField x = x.toNat % 2 ^ 63 / 2 ^ 52 := by
  simp only [expField, BitVec.extractLsb'_toNat, Nat.shiftRight_eq_div_pow]
  omega

theorem fracField_eq (x : F64) : fracField x = x.toNat % 2 ^ 63 % 2 ^ 52 := by
  simp only [fracField, BitVec.extractLsb'_toNat, Nat.shiftRight_eq_div_pow]
  omega

theorem magUnits_eq (x : F64) : magUnits x = magOf (x.toNat % 2 ^ 63) := by
  simp only [magUnits, magOf, ← expField_eq, ← fracField_eq, Nat.shiftLeft_eq]

theorem infPattern_eq : infPattern = 2047 * 2 ^ 52 := by decide

theorem isFinite_iff (x : F64) : isFinite x = true ↔ x.toNat % 2 ^ 63 < infPattern := by
  simp only [isFinite, bne_iff_ne, ne_eq, expField_eq, infPattern_eq]
  have := x.isLt
  omega

/-! ### Packed patterns -/

theorem packF_toNat (neg : Bool) {m : Nat} (h : m < 2 ^ 63) : (packF neg m).toNat = neg.toNat * 2 ^ 63 + m := by
  simp only [packF, BitVec.toNat_ofNat, Nat.shiftLeft_eq]
  cases neg <;> simp <;> omega

theorem packF_mag (neg : Bool) {m : Nat} (h : m < 2 ^ 63) : (packF neg m).toNat % 2 ^ 63 = m := by
  rw [packF_toNat neg h]
  cases neg <;> simp <;> omega

theorem signBit_eq (x : F64) : signBit x = decide (2 ^ 63 ≤ x.toNat) := by
  have := x.isLt
  simp only [signBit, BitVec.getLsbD, Nat.testBit_eq_decide_div_mod_eq]
  exact decide_eq_decide.2 (by omega)

theorem signBit_packF (neg : Bool) {m : Nat} (h : m < 2 ^ 63) : signBit (packF neg m) = neg := by
  rw [signBit_eq, packF_toNat neg h]
  cases neg
  · simp; omega
  · simp

theorem isFinite_packF (neg : Bool) {m : Nat} (h : m < infPattern) : isFinite (packF neg m) = true := by
  rw [isFinite_iff, packF_mag]
  · exact h
  · rw [infPattern_eq] at h; omega

theorem units_packF (neg : Bool) {m : Nat} (h : m < 2 ^ 63) :
    units (packF neg m) = if neg then -(magOf m : Int) else (magOf m : Int) := by
  rw [units, signBit_packF neg h, magUnits_eq, packF_mag neg h]

theorem getLsbD_zero_packF (neg : Bool) {m : Nat} (h : m < 2 ^ 63) : (packF neg m).getLsbD 0 = decide (m % 2 = 1) := by
  simp only [BitVec.getLsbD, Nat.testBit_zero, packF_toNat neg h]
  exact decide_eq_decide.2 (by omega)

/-! ### Magnitudes -/

/-- A significand `q` of 53 bits (or the 2^53 it rounds up to) at exponent `k` has the pattern `k * 2^52 + q`. -/
theorem magOf_scaled {k q : Nat} (hq : q ≤ 2 ^ 53) (hk : k = 0 ∨ 2 ^ 52 ≤ q) : magOf (k * 2 ^ 52 + q) = q * 2 ^ k := by
  unfold magOf
  by_cases h1 : q < 2 ^ 52
  · obtain rfl : k = 0 := by omega
    rw [if_pos (by omega)]
    simp; omega
  · by_cases h2 : q = 2 ^ 53
    · subst h2
      have e : (k * 2 ^ 52 + 2 ^ 53) / 2 ^ 52 = k + 2 := by omega
      rw [e, if_neg (by omega), show (k * 2 ^ 52 + 2 ^ 53) % 2 ^ 52 = 0 by omega, show k + 2 - 1 = k + 1 by omega,
        pow_succ]
      ring
    · have e : (k * 2 ^ 52 + q) / 2 ^ 52 = k + 1 := by omega
      rw [e, if_neg (by omega), show (k * 2 ^ 52 + q) % 2 ^ 52 = q - 2 ^ 52 by omega, Nat.add_sub_cancel,
        show 2 ^ 52 + (q - 2 ^ 52) = q by omega]

theorem magOf_lt_succ (m : Nat) : magOf m < magOf (m + 1) := by
  by_cases h : m < 2 ^ 52
  · have e1 := magOf_scaled (k := 0) (q := m) (by omega) (.inl rfl)
    have e2 := magOf_scaled (k := 0) (q := m + 1) (by omega) (.inl rfl)
    simp only [Nat.zero_mul, Nat.zero_add, pow_zero, Nat.mul_one] at e1 e2
    omega
  · obtain ⟨k, q, rfl, h1, h2⟩ : ∃ k q, m = k * 2 ^ 52 + q ∧ 2 ^ 52 ≤ q ∧ q < 2 ^ 53 :=
      ⟨m / 2 ^ 52 - 1, m % 2 ^ 52 + 2 ^ 52, by omega, by omega, by omega⟩
    rw [magOf_scaled (by omega) (.inr h1), Nat.add_assoc, magOf_scaled (by omega) (.inr (by omega))]
    exact Nat.mul_lt_mul_of_pos_right (by omega) (by positivity)

theorem magOf_strictMono : StrictMono magOf := strictMono_nat_of_lt_succ magOf_lt_succ

theorem magOf_zero : magOf 0 = 0 := by decide

/-! ### Rounding -/

/-- The significand of `roundMag` has 53 bits, or the exponent is the least one. -/
theorem roundMag_significand (n d : Nat) :
    let k := Nat.log2 (n / d) - 52
    n / (d * 2 ^ k) < 2 ^ 53 ∧ (k = 0 ∨ 2 ^ 52 ≤ n / (d * 2 ^ k)) := by
  intro k
  rw [← Nat.div_div_eq_div_mul]
  have hk : k = Nat.log2 (n / d) - 52 := rfl
  have hp : 0 < 2 ^ k := by positivity
  constructor
  · rw [Nat.div_lt_iff_lt_mul hp, ← pow_add]
    refine lt_of_lt_of_le (Nat.lt_log2_self) (Nat.pow_le_pow_right (by omega) (by omega))
  · by_cases h : k = 0
    · exact .inl h
    · right
      rw [Nat.le_div_iff_mul_le hp, ← pow_add]
      have h0 : n / d ≠ 0 := by
        intro h0; rw [h0] at hk; simp at hk; omega
      have := Nat.log2_self_le h0
      rwa [show Nat.log2 (n / d) = 52 + k by omega] at this

/-- `roundMag`, below the overflow threshold: the scaled quotient, its remainder, and the rounding of the last bit. -/
theorem roundMag_cases (n d : Nat) (hd : 0 < d) :
    ∃ k q r, n = q * (d * 2 ^ k) + r ∧ r < d * 2 ^ k ∧ q < 2 ^ 53 ∧ (k = 0 ∨ 2 ^ 52 ≤ q) ∧
      k = Nat.log2 (n / d) - 52 ∧
      ((2 * r < d * 2 ^ k ∧ roundMag n d = min (k * 2 ^ 52 + q) infPattern) ∨
        (d * 2 ^ k < 2 * r ∧ roundMag n d = min (k * 2 ^ 52 + (q + 1)) infPattern) ∨
        (2 * r = d * 2 ^ k ∧ q % 2 = 0 ∧ roundMag n d = min (k * 2 ^ 52 + q) infPattern) ∨
        (2 * r = d * 2 ^ k ∧ q % 2 = 1 ∧ roundMag n d = min (k * 2 ^ 52 + (q + 1)) infPattern)) := by
  have hs := roundMag_significand n d
  have hdk : 0 < d * 2 ^ (Nat.log2 (n / d) - 52) := by positivity
  refine ⟨Nat.log2 (n / d) - 52, n / (d * 2 ^ (Nat.log2 (n / d) - 52)), n % (d * 2 ^ (Nat.log2 (n / d) - 52)),
    (Nat.div_add_mod' n _).symm, Nat.mod_lt _ hdk, hs.1, hs.2, rfl, ?_⟩
  unfold roundMag
  simp only [Nat.shiftLeft_eq]
  generalize n % (d * 2 ^ (Nat.log2 (n / d) - 52)) = r
  generalize n / (d * 2 ^ (Nat.log2 (n / d) - 52)) = q
  generalize d * 2 ^ (Nat.log2 (n / d) - 52) = dk
  rcases lt_trichotomy (2 * r) dk with h | h | h
  · left; simp [h, h.ne, Nat.not_lt.2 h.le]
  · right; right
    rcases Nat.mod_two_eq_zero_or_one q with h2 | h2
    · left; simp [h, h2]
    · right; simp [h, h2, Nat.add_assoc]
  · right; left; simp [h, Nat.add_assoc]

/-- The least magnitude that overflows, in units: half a unit in the last place above the largest finite number. -/
def overflowUnits : Nat := (2 ^ 54 - 1) * 2 ^ 2044

theorem exponent_le {n d k : Nat} (hd : 0 < d) (hk : k = Nat.log2 (n / d) - 52) (hn : n < overflowUnits * d) :
    k ≤ 2045 := by
  have h1 : n / d < 2 ^ 2098 := by
    refine lt_trans ((Nat.div_lt_iff_lt_mul hd).2 hn) ?_
    obtain ⟨j, hj, h⟩ : ∃ j, j = 2044 ∧ 2098 = 54 + j := ⟨2044, rfl, rfl⟩
    rw [overflowUnits, h, ← hj, pow_add]
    exact Nat.mul_lt_mul_of_pos_right (by decide) (Nat.two_pow_pos _)
  by_cases h0 : n / d = 0
  · rw [h0] at hk
    simp only [Nat.log2_zero] at hk
    omega
  · have := (Nat.log2_lt h0).2 h1
    omega

/-- The largest finite number with half a unit in the last place added. -/
theorem overflowUnits_mul (k d : Nat) (hk : k = 2045) : 2 * (overflowUnits * d) = (2 ^ 54 - 1) * (d * 2 ^ k) := by
  obtain ⟨j, hj, rfl⟩ : ∃ j, j = 2044 ∧ k = j + 1 := ⟨2044, rfl, hk⟩
  rw [overflowUnits, ← hj, pow_succ]
  ring

theorem pattern_lt {n d k q r : Nat} (hd : 0 < d) (hk : k = Nat.log2 (n / d) - 52) (hn : n < overflowUnits * d)
    (hnq : n = q * (d * 2 ^ k) + r) (hq : q < 2 ^ 53) :
    k * 2 ^ 52 + q < infPattern ∧ (d * 2 ^ k ≤ 2 * r → k * 2 ^ 52 + (q + 1) < infPattern) := by
  have h1 := exponent_le hd hk hn
  have h2 := overflowUnits_mul k d
  rw [infPattern_eq]
  generalize overflowUnits * d = o at *
  generalize d * 2 ^ k = dk at *
  clear hk
  refine ⟨by clear hn hnq h2; omega, fun hr => ?_⟩
  by_contra hc
  have hk' : k = 2045 := by clear hn hnq h2; omega
  have hq' : q = 2 ^ 53 - 1 := by clear hn hnq h2; omega
  have h3 := h2 hk'
  clear h2 hc
  rw [hq'] at hnq
  norm_num at h3 hnq
  linarith

theorem magOf_side (k q z : Nat) (hq : q < 2 ^ 53) (hkq : k = 0 ∨ 2 ^ 52 ≤ q) :
    magOf z ≤ q * 2 ^ k ∨ (q + 1) * 2 ^ k ≤ magOf z := by
  rcases Nat.lt_or_ge (k * 2 ^ 52 + q) z with h | h
  · right
    rw [← magOf_scaled (k := k) (q := q + 1) (by omega) (by omega)]
    exact magOf_strictMono.monotone (by omega)
  · left
    rw [← magOf_scaled (k := k) (q := q) (by omega) hkq]
    exact magOf_strictMono.monotone h

/-- Of the multiples `lo` and `lo + g` (with `r` the part of the exact value above `lo`), the one `roundMag` takes is
nearest among values that are at most `lo` or at least `lo + g`. -/
theorem nearest_of_side {lo g r x v : Nat} (hr : r < g) (hx : x ≤ lo ∨ lo + g ≤ x)
    (hv : (2 * r < g ∧ v = lo) ∨ (g < 2 * r ∧ v = lo + g) ∨ (2 * r = g ∧ (v = lo ∨ v = lo + g))) :
    ((v : Int) - (lo + r : Nat)).natAbs ≤ ((x : Int) - (lo + r : Nat)).natAbs ∧
      (((v : Int) - (lo + r : Nat)).natAbs = ((x : Int) - (lo + r : Nat)).natAbs → x ≠ v → 2 * r = g) := by
  omega

theorem even_pattern (k : Nat) {q : Nat} (h : q % 2 = 0) : (k * 2 ^ 52 + q) % 2 = 0 := by omega

/-- Below the overflow threshold `roundMag n d` is a finite magnitude, no magnitude is nearer to `n / d` units (both
sides times `d`), and where another one is equally near the pattern is even. -/
theorem roundMag_nearest (n d : Nat) (hd : 0 < d) (hn : n < overflowUnits * d) :
    roundMag n d < infPattern ∧
    ∀ z : Nat,
      ((magOf (roundMag n d) * d : Nat) - (n : Int)).natAbs ≤ ((magOf z * d : Nat) - (n : Int)).natAbs ∧
      (((magOf (roundMag n d) * d : Nat) - (n : Int)).natAbs = ((magOf z * d : Nat) - (n : Int)).natAbs →
        magOf z ≠ magOf (roundMag n d) → roundMag n d % 2 = 0) := by
  obtain ⟨k, q, r, hnq, hr, hq, hkq, hk, hround⟩ := roundMag_cases n d hd
  obtain ⟨hlt, hlt1⟩ := pattern_lt hd hk hn hnq hq
  clear hn
  have hP : magOf (k * 2 ^ 52 + q) = q * 2 ^ k := magOf_scaled hq.le hkq
  have hP1 : magOf (k * 2 ^ 52 + (q + 1)) = (q + 1) * 2 ^ k :=
    magOf_scaled (Nat.succ_le_of_lt hq) (hkq.imp id Nat.le_succ_of_le)
  have e0 : q * 2 ^ k * d = q * (d * 2 ^ k) := by ring
  have e1 : (q + 1) * 2 ^ k * d = q * (d * 2 ^ k) + d * 2 ^ k := by ring
  have hside : ∀ z, magOf z * d ≤ q * (d * 2 ^ k) ∨ q * (d * 2 ^ k) + d * 2 ^ k ≤ magOf z * d := by
    intro z
    rcases magOf_side k q z hq hkq with h | h
    · left; rw [← e0]; exact Nat.mul_le_mul_right d h
    · right; rw [← e1]; exact Nat.mul_le_mul_right d h
  have hcases : roundMag n d < infPattern ∧
      ((2 * r < d * 2 ^ k ∧ magOf (roundMag n d) * d = q * (d * 2 ^ k)) ∨
        (d * 2 ^ k < 2 * r ∧ magOf (roundMag n d) * d = q * (d * 2 ^ k) + d * 2 ^ k) ∨
        (2 * r = d * 2 ^ k ∧ roundMag n d % 2 = 0 ∧ (magOf (roundMag n d) * d = q * (d * 2 ^ k) ∨
          magOf (roundMag n d) * d = q * (d * 2 ^ k) + d * 2 ^ k))) := by
    rcases hround with ⟨h, e⟩ | ⟨h, e⟩ | ⟨h, h2, e⟩ | ⟨h, h2, e⟩
    · rw [Nat.min_eq_left hlt.le] at e
      rw [e, hP, e0]
      exact ⟨hlt, .inl ⟨h, rfl⟩⟩
    · rw [Nat.min_eq_left (hlt1 h.le).le] at e
      rw [e, hP1, e1]
      exact ⟨hlt1 h.le, .inr (.inl ⟨h, rfl⟩)⟩
    · rw [Nat.min_eq_left hlt.le] at e
      rw [e, hP, e0]
      exact ⟨hlt, .inr (.inr ⟨h, even_pattern k h2, .inl rfl⟩)⟩
    · rw [Nat.min_eq_left (hlt1 h.ge).le] at e
      rw [e, hP1, e1]
      exact ⟨hlt1 h.ge, .inr (.inr ⟨h, even_pattern k (Nat.succ_mod_two_eq_zero_iff.2 h2), .inr rfl⟩)⟩
  refine ⟨hcases.1, fun z => ?_⟩
  obtain ⟨h1, h2⟩ := nearest_of_side (v := magOf (roundMag n d) * d) hr (hside z)
    (hcases.2.imp id (Or.imp id fun h => ⟨h.1, h.2.2⟩))
  rw [← hnq] at h1 h2
  refine ⟨h1, fun he hne => ?_⟩
  have ht := h2 he fun h => hne (Nat.eq_of_mul_eq_mul_right hd h)
  rcases hcases.2 with h | h | h
  · exact absurd ht h.1.ne
  · exact absurd ht h.1.ne'
  · exact h.2.1

theorem natAbs_units (x : F64) : (units x).natAbs = magUnits x := by
  unfold units; split <;> simp

theorem abs_units (x : F64) : units x = magUnits x ∨ units x = -(magUnits x : Int) := by
  unfold units; split <;> simp

/-- A value of either sign is no nearer than its magnitude is on the side of the exact value. -/
theorem nearest_of_magnitude {v w n d : Nat} (hd : 0 < d) {u : Int} (hu : u = w ∨ u = -(w : Int))
    (h1 : ((v * d : Nat) - (n : Int)).natAbs ≤ ((w * d : Nat) - (n : Int)).natAbs)
    (h0 : ((v * d : Nat) - (n : Int)).natAbs ≤ n) :
    ((v : Int) * d - n).natAbs ≤ (u * d - n).natAbs ∧
      (((v : Int) * d - n).natAbs = (u * d - n).natAbs → u ≠ v →
        ((v * d : Nat) - (n : Int)).natAbs = ((w * d : Nat) - (n : Int)).natAbs ∧ w ≠ v) := by
  have hv : (v : Int) * d = (v * d : Nat) := by push_cast; rfl
  have hw : u * d = (w * d : Nat) ∨ u * d = -((w * d : Nat) : Int) := by
    push_cast; exact hu.imp (by rintro rfl; rfl) (by rintro rfl; ring)
  have hv0 : v * d = 0 → v = 0 := fun h => (Nat.mul_eq_zero.1 h).resolve_right hd.ne'
  have hneg : u = -(w : Int) → u * d = -((w * d : Nat) : Int) := by rintro rfl; push_cast; ring
  rw [hv]
  generalize u * d = ud at *
  refine ⟨?_, fun he hne => ⟨?_, ?_⟩⟩
  · generalize v * d = vd at *
    generalize w * d = wd at *
    omega
  · generalize v * d = vd at *
    generalize w * d = wd at *
    omega
  · rintro rfl
    have hud := hneg (hu.resolve_left hne)
    generalize w * d = wd at *
    omega

/-- `roundMag` with a sign: the packed pattern is nearest to `e / d` units among all finite patterns of either sign, and
even where another number is equally near. -/
theorem packF_roundMag_nearest (neg : Bool) (n d : Nat) (hd : 0 < d) (hn : n < overflowUnits * d) :
    isFinite (packF neg (roundMag n d)) = true ∧
    ∀ z : F64,
      let e : Int := if neg then -(n : Int) else n
      (units (packF neg (roundMag n d)) * d - e).natAbs ≤ (units z * d - e).natAbs ∧
      ((units (packF neg (roundMag n d)) * d - e).natAbs = (units z * d - e).natAbs →
        units z ≠ units (packF neg (roundMag n d)) → (packF neg (roundMag n d)).getLsbD 0 = false) := by
  obtain ⟨hlt, hz⟩ := roundMag_nearest n d hd hn
  have h63 : roundMag n d < 2 ^ 63 := lt_trans hlt (by decide)
  refine ⟨isFinite_packF neg hlt, fun z => ?_⟩
  obtain ⟨h1, h2⟩ := hz (z.toNat % 2 ^ 63)
  obtain ⟨h01, h02⟩ := hz 0
  rw [← magUnits_eq] at h1 h2
  rw [units_packF neg h63, getLsbD_zero_packF neg h63]
  rw [magOf_zero] at h01 h02
  rw [Nat.zero_mul] at h01
  have hu := abs_units z
  cases neg
  · simp only [Bool.false_eq_true, if_false]
    obtain ⟨g1, g2⟩ := nearest_of_magnitude hd hu h1 (by simpa using h01)
    exact ⟨g1, fun he hne => by simp [h2 (g2 he hne).1 (g2 he hne).2]⟩
  · simp only [if_true]
    obtain ⟨g1, g2⟩ := nearest_of_magnitude (u := -units z) hd (hu.symm.imp (by omega) (by omega)) h1 (by simpa using h01)
    have e : ∀ a : Int, (a * d - -(n : Int)).natAbs = (-a * d - n).natAbs := by
      intro a; rw [← Int.natAbs_neg]; congr 1; ring
    simp only [e, neg_neg]
    exact ⟨g1, fun he hne => by simp [h2 (g2 he (by omega)).1 (g2 he (by omega)).2]⟩

/-- `roundMag` does not pass a magnitude the exact value does not pass. -/
theorem roundMag_le {n d z : Nat} (hd : 0 < d) (hn : n < overflowUnits * d) (h : n ≤ magOf z * d) :
    roundMag n d ≤ z := by
  by_contra hc
  have h1 := ((roundMag_nearest n d hd hn).2 z).1
  have h2 := Nat.mul_lt_mul_of_pos_right (magOf_strictMono (Nat.lt_of_not_le hc)) hd
  generalize magOf z * d = a at *
  generalize magOf (roundMag n d) * d = b at *
  clear hn
  omega

theorem le_roundMag {n d z : Nat} (hd : 0 < d) (hn : n < overflowUnits * d) (h : magOf z * d ≤ n) :
    z ≤ roundMag n d := by
  by_contra hc
  have h1 := ((roundMag_nearest n d hd hn).2 z).1
  have h2 := Nat.mul_lt_mul_of_pos_right (magOf_strictMono (Nat.lt_of_not_le hc)) hd
  generalize magOf z * d = a at *
  generalize magOf (roundMag n d) * d = b at *
  clear hn
  omega

/-- A value that is a magnitude is not rounded. -/
theorem roundMag_exact {n d z : Nat} (hd : 0 < d) (hn : n < overflowUnits * d) (h : magOf z * d = n) :
    roundMag n d = z :=
  Nat.le_antisymm (roundMag_le hd hn h.ge) (le_roundMag hd hn h.le)

/-! ### Bounds and operand facts -/

theorem two_pow_lt_overflow {j : Nat} (h : j ≤ 2097) : 2 ^ j < overflowUnits := by
  obtain ⟨i, hi, e⟩ : ∃ i, i = 2044 ∧ 2097 = 53 + i := ⟨2044, rfl, rfl⟩
  refine lt_of_le_of_lt (Nat.pow_le_pow_right (by omega) h) ?_
  rw [overflowUnits, ← hi, e, pow_add]
  exact Nat.mul_lt_mul_of_pos_right (by decide) (Nat.two_pow_pos _)

/-- A finite number with up to 2^2044 units added is still below the overflow threshold. -/
theorem magUnits_add_lt {x : F64} (h : isFinite x = true) {j a : Nat} (hj : j = 2044) (ha : a < 2 ^ j) :
    magUnits x + a < overflowUnits := by
  have h1 : magOf (x.toNat % 2 ^ 63) ≤ magOf (2045 * 2 ^ 52 + (2 ^ 53 - 1)) :=
    magOf_strictMono.monotone (by have := (isFinite_iff x).1 h; rw [infPattern_eq] at this; omega)
  obtain ⟨k, hk, hkj⟩ : ∃ k, k = 2045 ∧ k = j + 1 := ⟨2045, rfl, by omega⟩
  rw [← hk, magOf_scaled (by omega) (.inr (by omega)), hkj, pow_succ 2 j] at h1
  rw [magUnits_eq, overflowUnits, ← hj]
  generalize 2 ^ j = p at *
  omega

theorem signBit_negF (x : F64) : signBit (negF x) = !signBit x := by
  simp [signBit, negF]

theorem negF_mag (x : F64) : (negF x).toNat % 2 ^ 63 = x.toNat % 2 ^ 63 := by
  have h : ∀ y : F64, y.toNat % 2 ^ 63 = (y.extractLsb' 0 63).toNat := by intro y; simp [BitVec.extractLsb'_toNat]
  rw [h, h]
  congr 1
  unfold negF
  rw [BitVec.extractLsb'_xor]
  simp

theorem units_negF (x : F64) : units (negF x) = -units x := by
  rw [units, units, signBit_negF, magUnits_eq, negF_mag, ← magUnits_eq]
  cases signBit x <;> simp

theorem isFinite_negF {x : F64} (h : isFinite x = true) : isFinite (negF x) = true := by
  rw [isFinite_iff, negF_mag]; exact (isFinite_iff x).1 h

theorem not_isNaN_of_finite {x : F64} (h : isFinite x = true) : isNaN x = false := by
  simp only [isFinite, bne_iff_ne] at h
  simp [isNaN, h]

theorem not_isInf_of_finite {x : F64} (h : isFinite x = true) : isInf x = false := by
  simp only [isFinite, bne_iff_ne] at h
  simp [isInf, h]

/-- The sum of finite operands: the exact sum, rounded once. -/
theorem sumOr_of_finite (nan : F64) {x y : F64} (hx : isFinite x = true) (hy : isFinite y = true) :
    sumOr nan x y =
      if units x + units y = 0 then packF (signBit x && signBit y) 0
      else packF (decide (units x + units y < 0)) (roundMag (units x + units y).natAbs 1) := by
  simp [sumOr, not_isNaN_of_finite hx, not_isNaN_of_finite hy, not_isInf_of_finite hx, not_isInf_of_finite hy]

/-- `u2f` of a number of at most 53 bits is exact: its magnitude pattern. -/
theorem u2f_exact {n : Nat} (h0 : n ≠ 0) (hn : n < 2 ^ 53) :
    ∃ m, u2f n = packF false m ∧ m < infPattern ∧ magOf m = n * 2 ^ 1074 := by
  have hl : Nat.log2 n ≤ 52 := by
    have := (Nat.log2_lt h0).2 hn; omega
  have h1 := Nat.log2_self_le h0
  have h2 := Nat.lt_log2_self (n := n)
  obtain ⟨b, hb⟩ : ∃ b, b = 1074 := ⟨1074, rfl⟩
  have hq1 : 2 ^ 52 ≤ n * 2 ^ (52 - Nat.log2 n) := by
    calc 2 ^ 52 = 2 ^ Nat.log2 n * 2 ^ (52 - Nat.log2 n) := by rw [← pow_add]; congr 1; omega
      _ ≤ _ := Nat.mul_le_mul_right _ h1
  have hq2 : n * 2 ^ (52 - Nat.log2 n) < 2 ^ 53 := by
    calc _ < 2 ^ (Nat.log2 n + 1) * 2 ^ (52 - Nat.log2 n) := Nat.mul_lt_mul_of_pos_right h2 (Nat.two_pow_pos _)
      _ = 2 ^ 53 := by rw [← pow_add]; congr 1; omega
  have hm : magOf ((b + Nat.log2 n - 52) * 2 ^ 52 + n * 2 ^ (52 - Nat.log2 n)) = n * 2 ^ b := by
    rw [magOf_scaled hq2.le (.inr hq1), Nat.mul_assoc, ← pow_add]
    congr 2
    omega
  have hov : n * 2 ^ b < overflowUnits * 1 := by
    rw [Nat.mul_one]
    refine lt_trans (Nat.mul_lt_mul_of_pos_right hn (Nat.two_pow_pos _)) ?_
    rw [← pow_add]
    exact two_pow_lt_overflow (by omega)
  refine ⟨_, ?_, ?_, by rw [hm, hb]⟩
  · rw [u2f, Nat.shiftLeft_eq, ← hb, roundMag_exact Nat.one_pos hov (by rw [Nat.mul_one]; exact hm)]
  · rw [infPattern_eq]; omega

/-! ### The operations on finite operands -/

/-- The sum of finite operands, below the overflow threshold: no finite number is nearer to the exact sum, and where
another one is equally near the pattern is even. -/
theorem sumOr_nearest (nan : F64) {x y : F64} (hx : isFinite x = true) (hy : isFinite y = true)
    (h : (units x + units y).natAbs < overflowUnits) :
    isFinite (sumOr nan x y) = true ∧ ∀ z : F64,
      (units (sumOr nan x y) - (units x + units y)).natAbs ≤ (units z - (units x + units y)).natAbs ∧
      ((units (sumOr nan x y) - (units x + units y)).natAbs = (units z - (units x + units y)).natAbs →
        units z ≠ units (sumOr nan x y) → (sumOr nan x y).getLsbD 0 = false) := by
  rw [sumOr_of_finite nan hx hy]
  generalize units x + units y = e at *
  by_cases h0 : e = 0
  · subst h0
    simp only [if_true]
    refine ⟨isFinite_packF _ (by decide), fun z => ?_⟩
    have e : (if (signBit x && signBit y) = true then -((0 : Nat) : Int) else ((0 : Nat) : Int)) = 0 := by
      split <;> rfl
    rw [units_packF _ (by decide), magOf_zero, e]
    clear e h
    generalize units z = u
    generalize (packF (signBit x && signBit y) 0).getLsbD 0 = b
    exact ⟨by omega, by omega⟩
  · rw [if_neg h0]
    obtain ⟨h1, h2⟩ := packF_roundMag_nearest (decide (e < 0)) e.natAbs 1 Nat.one_pos (by simpa using h)
    refine ⟨h1, fun z => ?_⟩
    have h3 := h2 z
    have he : (if decide (e < 0) = true then -(e.natAbs : Int) else e.natAbs) = e := by
      clear h1 h2 h3 h
      by_cases h : e < 0
      · rw [if_pos (by simpa using h)]; omega
      · rw [if_neg (by simpa using h)]; omega
    simp only [he, Nat.cast_one, mul_one] at h3
    exact h3

theorem magUnits_f360 {b : Nat} (hb : b = 1074) : magUnits f360 = 360 * 2 ^ b := by
  have h : f360.toNat % 2 ^ 63 = 1030 * 2 ^ 52 + 360 * 2 ^ 44 := by decide
  rw [magUnits_eq, h, magOf_scaled (by omega) (by omega), Nat.mul_assoc, ← pow_add]
  congr 2
  omega

/-- The quotient of 360 by a count of up to 32 bits: one rounding of a fraction whose terms are the two magnitudes. -/
theorem fdiv_f360 {n b : Nat} (h0 : n ≠ 0) (hn : n < 2 ^ 32) (hb : b = 1074) :
    fdiv f360 (u2f n) = packF false (roundMag (360 * 2 ^ b * 2 ^ b) (n * 2 ^ b)) := by
  obtain ⟨m, h1, h2, h3⟩ := u2f_exact h0 (by omega)
  have h63 : m < 2 ^ 63 := lt_trans h2 (by decide)
  have hu : magUnits (u2f n) = n * 2 ^ b := by rw [magUnits_eq, h1, packF_mag _ h63, h3, hb]
  have hfin : isFinite (u2f n) = true := by rw [h1]; exact isFinite_packF _ h2
  have hs : signBit (u2f n) = false := by rw [h1, signBit_packF _ h63]
  have hn0 : n * 2 ^ b ≠ 0 := Nat.mul_ne_zero h0 (Nat.two_pow_pos b).ne'
  have f1 : isNaN f360 = false := by decide
  have f2 : isInf f360 = false := by decide
  have f3 : signBit f360 = false := by decide
  unfold fdiv
  simp only [hfin, hs, f1, f2, f3, not_isNaN_of_finite hfin, not_isInf_of_finite hfin, hu, magUnits_f360 hb,
    Nat.shiftLeft_eq, ← hb]
  simp [hn0]

/-- That quotient is far below the overflow threshold. -/
theorem f360_lt_overflow {n b : Nat} (hb : b = 1074) (h0 : n ≠ 0) :
    360 * 2 ^ b * 2 ^ b < overflowUnits * (n * 2 ^ b) := by
  have h := two_pow_lt_overflow (j := 9 + b) (by omega)
  rw [pow_add] at h
  have hp : 0 < 2 ^ b := Nat.two_pow_pos b
  generalize 2 ^ b = p at *
  calc 360 * p * p < 2 ^ 9 * p * p := by
        apply Nat.mul_lt_mul_of_pos_right _ hp
        omega
    _ ≤ overflowUnits * p := Nat.mul_le_mul_right _ h.le
    _ ≤ _ := Nat.mul_le_mul_left _ (Nat.le_mul_of_pos_left _ (by omega))

end Sys2Proof.Machine
end

