-- ==== Sys2Proof/Laws/State.lean ====
section
/-! SUPPORT. What each shared operation does to each field of the state: one lemma a field, true by unfolding once, so that
no later proof unfolds a record update. -/

namespace Sys2Proof.Machine

variable (s : State)

@[simp] theorem State.hold_eq : s.hold = s := rfl

/-! ### `answer` -/

@[simp] theorem State.answer_sub (st : Status) : (s.answer st).sub = s.sub := rfl
@[simp] theorem State.answer_acc (st : Status) : (s.answer st).acc = s.acc := rfl
@[simp] theorem State.answer_stepReg (st : Status) : (s.answer st).stepReg = s.stepReg := rfl
@[simp] theorem State.answer_life (st : Status) : (s.answer st).life = s.life := rfl
@[simp] theorem State.answer_own (st : Status) : (s.answer st).own = s.own := rfl
@[simp] theorem State.answer_wpend (st : Status) : (s.answer st).wpend = s.wpend := rfl
@[simp] theorem State.answer_caller (st : Status) : (s.answer st).caller = s.caller := rfl
@[simp] theorem State.answer_irq (st : Status) : (s.answer st).irq = s.irq := rfl
@[simp] theorem State.answer_slatch (st : Status) : (s.answer st).slatch = s.slatch := rfl
@[simp] theorem State.answer_faultMarks (st : Status) : (s.answer st).faultMarks = s.faultMarks := rfl
@[simp] theorem State.answer_refusedMarks (st : Status) : (s.answer st).refusedMarks = s.refusedMarks := rfl
@[simp] theorem State.answer_phase (st : Status) : (s.answer st).phase = s.phase := rfl
@[simp] theorem State.answer_params (st : Status) : (s.answer st).params = s.params := rfl
@[simp] theorem State.answer_programs (st : Status) : (s.answer st).programs = nextPrograms s := rfl
@[simp] theorem State.answer_script (st : Status) : (s.answer st).script = s.script := rfl
@[simp] theorem State.answer_returned (st : Status) : (s.answer st).returned = s.returned ++ [(s.actor, st)] := rfl
@[simp] theorem State.answer_sched (st : Status) : (s.answer st).sched = s.sched := rfl
@[simp] theorem State.answer_actor (st : Status) : (s.answer st).actor = s.actor := rfl
@[simp] theorem State.answer_inputs (st : Status) : (s.answer st).inputs = s.inputs := rfl
@[simp] theorem State.answer_draws (st : Status) : (s.answer st).draws = s.draws := rfl

/-! ### `refuse` -/

@[simp] theorem State.refuse_sub (r : RefuseReason) : (s.refuse r).sub = s.sub := rfl
@[simp] theorem State.refuse_acc (r : RefuseReason) : (s.refuse r).acc = s.acc := rfl
@[simp] theorem State.refuse_stepReg (r : RefuseReason) : (s.refuse r).stepReg = s.stepReg := rfl
@[simp] theorem State.refuse_life (r : RefuseReason) : (s.refuse r).life = s.life := rfl
@[simp] theorem State.refuse_own (r : RefuseReason) : (s.refuse r).own = s.own := rfl
@[simp] theorem State.refuse_wpend (r : RefuseReason) : (s.refuse r).wpend = s.wpend := rfl
@[simp] theorem State.refuse_caller (r : RefuseReason) : (s.refuse r).caller = s.caller := rfl
@[simp] theorem State.refuse_irq (r : RefuseReason) : (s.refuse r).irq = s.irq := rfl
@[simp] theorem State.refuse_slatch (r : RefuseReason) : (s.refuse r).slatch = s.slatch := rfl
@[simp] theorem State.refuse_faultMarks (r : RefuseReason) : (s.refuse r).faultMarks = s.faultMarks := rfl
@[simp] theorem State.refuse_refusedMarks (r : RefuseReason) : (s.refuse r).refusedMarks = s.refusedMarks.add r := rfl
@[simp] theorem State.refuse_phase (r : RefuseReason) : (s.refuse r).phase = s.phase := rfl
@[simp] theorem State.refuse_params (r : RefuseReason) : (s.refuse r).params = s.params := rfl
@[simp] theorem State.refuse_programs (r : RefuseReason) : (s.refuse r).programs = nextPrograms s := rfl
@[simp] theorem State.refuse_script (r : RefuseReason) : (s.refuse r).script = s.script := rfl
@[simp] theorem State.refuse_returned (r : RefuseReason) : (s.refuse r).returned = s.returned := rfl
@[simp] theorem State.refuse_sched (r : RefuseReason) : (s.refuse r).sched = s.sched := rfl
@[simp] theorem State.refuse_actor (r : RefuseReason) : (s.refuse r).actor = s.actor := rfl
@[simp] theorem State.refuse_inputs (r : RefuseReason) : (s.refuse r).inputs = s.inputs := rfl
@[simp] theorem State.refuse_draws (r : RefuseReason) : (s.refuse r).draws = s.draws := rfl

/-! ### `raiseFault` -/

@[simp] theorem State.raiseFault_sub (r : Fault) : (s.raiseFault r).sub = s.sub := rfl
@[simp] theorem State.raiseFault_acc (r : Fault) : (s.raiseFault r).acc = s.acc := rfl
@[simp] theorem State.raiseFault_stepReg (r : Fault) : (s.raiseFault r).stepReg = s.stepReg := rfl
@[simp] theorem State.raiseFault_life (r : Fault) : (s.raiseFault r).life = s.life := rfl
@[simp] theorem State.raiseFault_own (r : Fault) : (s.raiseFault r).own = s.own := rfl
@[simp] theorem State.raiseFault_wpend (r : Fault) : (s.raiseFault r).wpend = s.wpend := rfl
@[simp] theorem State.raiseFault_caller (r : Fault) : (s.raiseFault r).caller = s.caller := rfl
@[simp] theorem State.raiseFault_irq (r : Fault) : (s.raiseFault r).irq = s.irq := rfl
@[simp] theorem State.raiseFault_slatch (r : Fault) : (s.raiseFault r).slatch = s.slatch := rfl
@[simp] theorem State.raiseFault_faultMarks (r : Fault) : (s.raiseFault r).faultMarks = s.faultMarks.add r := rfl
@[simp] theorem State.raiseFault_refusedMarks (r : Fault) : (s.raiseFault r).refusedMarks = s.refusedMarks := rfl
@[simp] theorem State.raiseFault_phase (r : Fault) : (s.raiseFault r).phase = s.phase := rfl
@[simp] theorem State.raiseFault_params (r : Fault) : (s.raiseFault r).params = s.params := rfl
@[simp] theorem State.raiseFault_programs (r : Fault) : (s.raiseFault r).programs = s.programs := rfl
@[simp] theorem State.raiseFault_script (r : Fault) : (s.raiseFault r).script = s.script := rfl
@[simp] theorem State.raiseFault_returned (r : Fault) : (s.raiseFault r).returned = s.returned := rfl
@[simp] theorem State.raiseFault_sched (r : Fault) : (s.raiseFault r).sched = s.sched := rfl
@[simp] theorem State.raiseFault_actor (r : Fault) : (s.raiseFault r).actor = s.actor := rfl
@[simp] theorem State.raiseFault_inputs (r : Fault) : (s.raiseFault r).inputs = s.inputs := rfl
@[simp] theorem State.raiseFault_draws (r : Fault) : (s.raiseFault r).draws = s.draws := rfl

/-! ### `afterDraw` -/

@[simp] theorem State.afterDraw_sub : (s.afterDraw).sub = s.sub := rfl
@[simp] theorem State.afterDraw_acc : (s.afterDraw).acc = s.acc := rfl
@[simp] theorem State.afterDraw_stepReg : (s.afterDraw).stepReg = s.stepReg := rfl
@[simp] theorem State.afterDraw_life : (s.afterDraw).life = s.life := rfl
@[simp] theorem State.afterDraw_own : (s.afterDraw).own = s.own := rfl
@[simp] theorem State.afterDraw_wpend : (s.afterDraw).wpend = s.wpend := rfl
@[simp] theorem State.afterDraw_caller : (s.afterDraw).caller = s.caller := rfl
@[simp] theorem State.afterDraw_irq : (s.afterDraw).irq = s.irq := rfl
@[simp] theorem State.afterDraw_slatch : (s.afterDraw).slatch = s.slatch := rfl
@[simp] theorem State.afterDraw_faultMarks : (s.afterDraw).faultMarks = s.faultMarks := rfl
@[simp] theorem State.afterDraw_refusedMarks : (s.afterDraw).refusedMarks = s.refusedMarks := rfl
@[simp] theorem State.afterDraw_phase : (s.afterDraw).phase = s.phase := rfl
@[simp] theorem State.afterDraw_params : (s.afterDraw).params = s.params := rfl
@[simp] theorem State.afterDraw_programs : (s.afterDraw).programs = s.programs := rfl
@[simp] theorem State.afterDraw_script : (s.afterDraw).script = s.script := rfl
@[simp] theorem State.afterDraw_returned : (s.afterDraw).returned = s.returned := rfl
@[simp] theorem State.afterDraw_sched : (s.afterDraw).sched = s.sched := rfl
@[simp] theorem State.afterDraw_actor : (s.afterDraw).actor = s.actor := rfl
@[simp] theorem State.afterDraw_inputs : (s.afterDraw).inputs = s.inputs.tail := rfl
@[simp] theorem State.afterDraw_draws : (s.afterDraw).draws = if s.inputs.isEmpty then s.draws + 1 else s.draws := rfl

/-! ### `commitWrite` -/

@[simp] theorem State.commitWrite_sub : (s.commitWrite).sub = s.sub := rfl
@[simp] theorem State.commitWrite_acc : (s.commitWrite).acc = s.wpend := rfl
@[simp] theorem State.commitWrite_stepReg : (s.commitWrite).stepReg = s.stepReg := rfl
@[simp] theorem State.commitWrite_life : (s.commitWrite).life = s.life := rfl
@[simp] theorem State.commitWrite_own : (s.commitWrite).own = Own.none := rfl
@[simp] theorem State.commitWrite_wpend : (s.commitWrite).wpend = s.wpend := rfl
@[simp] theorem State.commitWrite_caller : (s.commitWrite).caller = s.caller := rfl
@[simp] theorem State.commitWrite_irq : (s.commitWrite).irq = s.irq := rfl
@[simp] theorem State.commitWrite_slatch : (s.commitWrite).slatch = s.slatch := rfl
@[simp] theorem State.commitWrite_faultMarks : (s.commitWrite).faultMarks = s.faultMarks := rfl
@[simp] theorem State.commitWrite_refusedMarks : (s.commitWrite).refusedMarks = s.refusedMarks := rfl
@[simp] theorem State.commitWrite_phase : (s.commitWrite).phase = s.phase := rfl
@[simp] theorem State.commitWrite_params : (s.commitWrite).params = s.params := rfl
@[simp] theorem State.commitWrite_programs : (s.commitWrite).programs = s.programs := rfl
@[simp] theorem State.commitWrite_script : (s.commitWrite).script = s.script := rfl
@[simp] theorem State.commitWrite_returned : (s.commitWrite).returned = s.returned := rfl
@[simp] theorem State.commitWrite_sched : (s.commitWrite).sched = s.sched := rfl
@[simp] theorem State.commitWrite_actor : (s.commitWrite).actor = s.actor := rfl
@[simp] theorem State.commitWrite_inputs : (s.commitWrite).inputs = s.inputs := rfl
@[simp] theorem State.commitWrite_draws : (s.commitWrite).draws = s.draws := rfl

/-! ### `commitInit` -/

@[simp] theorem State.commitInit_sub (n : Pulses) : (s.commitInit n).sub = untaggedWord s.params.home := rfl
@[simp] theorem State.commitInit_acc (n : Pulses) : (s.commitInit n).acc = f0 := rfl
@[simp] theorem State.commitInit_stepReg (n : Pulses) : (s.commitInit n).stepReg = stepOf s.params.fp n := rfl
@[simp] theorem State.commitInit_life (n : Pulses) : (s.commitInit n).life = Life.initialized := rfl
@[simp] theorem State.commitInit_own (n : Pulses) : (s.commitInit n).own = s.own := rfl
@[simp] theorem State.commitInit_wpend (n : Pulses) : (s.commitInit n).wpend = s.wpend := rfl
@[simp] theorem State.commitInit_caller (n : Pulses) : (s.commitInit n).caller = s.caller := rfl
@[simp] theorem State.commitInit_irq (n : Pulses) : (s.commitInit n).irq = false := rfl
@[simp] theorem State.commitInit_slatch (n : Pulses) : (s.commitInit n).slatch = s.slatch := rfl
@[simp] theorem State.commitInit_faultMarks (n : Pulses) : (s.commitInit n).faultMarks = s.faultMarks := rfl
@[simp] theorem State.commitInit_refusedMarks (n : Pulses) : (s.commitInit n).refusedMarks = s.refusedMarks := rfl
@[simp] theorem State.commitInit_phase (n : Pulses) : (s.commitInit n).phase = s.phase := rfl
@[simp] theorem State.commitInit_params (n : Pulses) : (s.commitInit n).params = s.params := rfl
@[simp] theorem State.commitInit_programs (n : Pulses) : (s.commitInit n).programs = s.programs := rfl
@[simp] theorem State.commitInit_script (n : Pulses) : (s.commitInit n).script = s.script := rfl
@[simp] theorem State.commitInit_returned (n : Pulses) : (s.commitInit n).returned = s.returned := rfl
@[simp] theorem State.commitInit_sched (n : Pulses) : (s.commitInit n).sched = s.sched := rfl
@[simp] theorem State.commitInit_actor (n : Pulses) : (s.commitInit n).actor = s.actor := rfl
@[simp] theorem State.commitInit_inputs (n : Pulses) : (s.commitInit n).inputs = s.inputs := rfl
@[simp] theorem State.commitInit_draws (n : Pulses) : (s.commitInit n).draws = s.draws := rfl

/-! ### `storeWord` -/

@[simp] theorem State.storeWord_acc (w : RomWord) : (s.storeWord w).acc = s.acc := by
  unfold State.storeWord; split <;> rfl
@[simp] theorem State.storeWord_stepReg (w : RomWord) : (s.storeWord w).stepReg = s.stepReg := by
  unfold State.storeWord; split <;> rfl
@[simp] theorem State.storeWord_life (w : RomWord) : (s.storeWord w).life = s.life := by
  unfold State.storeWord; split <;> rfl
@[simp] theorem State.storeWord_caller (w : RomWord) : (s.storeWord w).caller = s.caller := by
  unfold State.storeWord; split <;> rfl
@[simp] theorem State.storeWord_irq (w : RomWord) : (s.storeWord w).irq = s.irq := by
  unfold State.storeWord; split <;> rfl
@[simp] theorem State.storeWord_slatch (w : RomWord) : (s.storeWord w).slatch = s.slatch := by
  unfold State.storeWord; split <;> rfl
@[simp] theorem State.storeWord_faultMarks (w : RomWord) : (s.storeWord w).faultMarks = s.faultMarks := by
  unfold State.storeWord; split <;> rfl
@[simp] theorem State.storeWord_refusedMarks (w : RomWord) : (s.storeWord w).refusedMarks = s.refusedMarks := by
  unfold State.storeWord; split <;> rfl
@[simp] theorem State.storeWord_phase (w : RomWord) : (s.storeWord w).phase = s.phase := by
  unfold State.storeWord; split <;> rfl
@[simp] theorem State.storeWord_params (w : RomWord) : (s.storeWord w).params = s.params := by
  unfold State.storeWord; split <;> rfl
@[simp] theorem State.storeWord_programs (w : RomWord) : (s.storeWord w).programs = s.programs := by
  unfold State.storeWord; split <;> rfl
@[simp] theorem State.storeWord_script (w : RomWord) : (s.storeWord w).script = s.script := by
  unfold State.storeWord; split <;> rfl
@[simp] theorem State.storeWord_returned (w : RomWord) : (s.storeWord w).returned = s.returned := by
  unfold State.storeWord; split <;> rfl
@[simp] theorem State.storeWord_sched (w : RomWord) : (s.storeWord w).sched = s.sched := by
  unfold State.storeWord; split <;> rfl
@[simp] theorem State.storeWord_actor (w : RomWord) : (s.storeWord w).actor = s.actor := by
  unfold State.storeWord; split <;> rfl
@[simp] theorem State.storeWord_inputs (w : RomWord) : (s.storeWord w).inputs = s.inputs := by
  unfold State.storeWord; split <;> rfl
@[simp] theorem State.storeWord_draws (w : RomWord) : (s.storeWord w).draws = s.draws := by
  unfold State.storeWord; split <;> rfl
@[simp] theorem State.storeWord_sub (w : RomWord) : (s.storeWord w).sub = w := by
  unfold State.storeWord; split <;> rfl

/-- A word with a tag starts a write: its value is pending and the decoder holds the token. -/
theorem State.storeWord_of_value {w : RomWord} {v : F64}
    (h : actionValue s.params.fp (dispatch s.params (tagOf w)) s.acc s.stepReg = some v) :
    s.storeWord w = { s with sub := w, wpend := v, own := .dec } := by
  unfold State.storeWord; rw [h]

/-- A word without a tag ends the decode: the token is free. -/
theorem State.storeWord_of_none {w : RomWord}
    (h : actionValue s.params.fp (dispatch s.params (tagOf w)) s.acc s.stepReg = none) :
    s.storeWord w = { s with sub := w, own := .none } := by
  unfold State.storeWord; rw [h]

end Sys2Proof.Machine
end

