-- ==== Sys2Proof/Laws/Programs.lean ====
section
/-! SUPPORT. Agents' lists (their programs, what they were told) as data in one canonical form: what reading after
replacing gives, and that replacing keeps the form. -/

namespace Sys2Proof.Machine

variable {α : Type}

theorem listFor_cons (b a : Nat) (p : List α) (rest : List (Nat × List α)) :
    listFor ((b, p) :: rest) a = if a = b then p else listFor rest a := rfl

/-- The first id listed is above `b`, if any is listed. -/
def headAbove (b : Nat) : List (Nat × List α) → Bool
  | [] => true
  | (a, _) :: _ => decide (b < a)

theorem agentListsWf_cons (b : Nat) (p : List α) (rest : List (Nat × List α)) :
    agentListsWf ((b, p) :: rest) = (!p.isEmpty && headAbove b rest && agentListsWf rest) := by
  cases rest with
  | nil => simp [agentListsWf, headAbove]
  | cons e rest => rfl

theorem listFor_of_headAbove {l : List (Nat × List α)} {b a : Nat}
    (hw : agentListsWf l = true) (hb : headAbove b l = true) (ha : a ≤ b) : listFor l a = [] := by
  induction l generalizing b with
  | nil => rfl
  | cons e rest ih =>
    obtain ⟨c, p⟩ := e
    simp only [agentListsWf_cons, Bool.and_eq_true] at hw
    simp only [headAbove, decide_eq_true_eq] at hb
    rw [listFor_cons, if_neg (by omega)]
    exact ih hw.2 hw.1.2 (by omega)

theorem headAbove_setListFor {l : List (Nat × List α)} {b a : Nat} {p : List α}
    (hw : agentListsWf l = true) (hb : headAbove b l = true) (ha : b < a) :
    headAbove b (setListFor l a p) = true := by
  cases l with
  | nil => by_cases hp : p = [] <;> simp [setListFor, headAbove, hp, ha]
  | cons e rest =>
    obtain ⟨c, q⟩ := e
    simp only [agentListsWf_cons, Bool.and_eq_true] at hw
    simp only [headAbove, decide_eq_true_eq] at hb
    by_cases hac : a = c
    · subst hac
      by_cases hp : p = []
      · cases rest with
        | nil => simp [setListFor, hp, headAbove]
        | cons e' _ =>
          have := hw.1.2
          simp only [headAbove, decide_eq_true_eq] at this
          simp [setListFor, hp, headAbove]
          omega
      · simp [setListFor, hp, headAbove, ha]
    · by_cases hlt : a < c
      · by_cases hp : p = [] <;> simp [setListFor, hac, hlt, hp, headAbove, ha, hb]
      · simp [setListFor, hac, hlt, headAbove, hb]

/-- Replacing an agent's list keeps the canonical form. -/
theorem agentListsWf_setListFor {l : List (Nat × List α)} (a : Nat) (p : List α)
    (hw : agentListsWf l = true) : agentListsWf (setListFor l a p) = true := by
  induction l with
  | nil => by_cases hp : p = [] <;> simp [setListFor, hp, agentListsWf]
  | cons e rest ih =>
    obtain ⟨c, q⟩ := e
    have hw' := hw
    simp only [agentListsWf_cons, Bool.and_eq_true] at hw'
    by_cases hac : a = c
    · subst hac
      by_cases hp : p = []
      · simpa [setListFor, hp] using hw'.2
      · simp [setListFor, hp, agentListsWf_cons, hw'.1.2, hw'.2]
    · by_cases hlt : a < c
      · by_cases hp : p = []
        · simpa [setListFor, hac, hlt, hp] using hw
        · simp [setListFor, hac, hlt, hp, agentListsWf_cons, headAbove] at hw ⊢
          exact hw
      · have := headAbove_setListFor (p := p) hw'.2 hw'.1.2 (show c < a by omega)
        simp [setListFor, hac, hlt, agentListsWf_cons, this, ih hw'.2]
        simpa using hw'.1.1

/-- Reading an agent's list after replacing it gives the new one. -/
theorem listFor_setListFor_self {l : List (Nat × List α)} (a : Nat) (p : List α)
    (hw : agentListsWf l = true) : listFor (setListFor l a p) a = p := by
  induction l with
  | nil => by_cases hp : p = [] <;> simp [setListFor, hp, listFor]
  | cons e rest ih =>
    obtain ⟨c, q⟩ := e
    have hw' := hw
    simp only [agentListsWf_cons, Bool.and_eq_true] at hw'
    by_cases hac : a = c
    · subst hac
      by_cases hp : p = []
      · simpa [setListFor, hp] using listFor_of_headAbove hw'.2 hw'.1.2 (Nat.le_refl a)
      · simp [setListFor, hp, listFor]
    · by_cases hlt : a < c
      · by_cases hp : p = []
        · have := listFor_of_headAbove hw'.2 hw'.1.2 (Nat.le_of_lt hlt)
          simp [setListFor, hac, hlt, hp, listFor, this]
        · simp [setListFor, hac, hlt, hp, listFor]
      · simp [setListFor, hac, hlt, listFor, ih hw'.2]

/-- Replacing one agent's list leaves every other agent's alone. -/
theorem listFor_setListFor_other {l : List (Nat × List α)} {a b : Nat} (p : List α)
    (hb : b ≠ a) : listFor (setListFor l a p) b = listFor l b := by
  induction l with
  | nil => by_cases hp : p = [] <;> simp [setListFor, hp, listFor, hb]
  | cons e rest ih =>
    obtain ⟨c, q⟩ := e
    by_cases hac : a = c
    · subst hac
      by_cases hp : p = [] <;> simp [setListFor, hp, listFor, hb]
    · by_cases hlt : a < c
      · by_cases hp : p = [] <;> simp [setListFor, hac, hlt, hp, listFor, hb]
      · simp [setListFor, hac, hlt, listFor, ih]

/-- Lists in canonical form that read the same for every agent are equal. -/
theorem agentLists_ext {l m : List (Nat × List α)} (hl : agentListsWf l = true) (hm : agentListsWf m = true)
    (h : ∀ a, listFor l a = listFor m a) : l = m := by
  induction l generalizing m with
  | nil =>
    cases m with
    | nil => rfl
    | cons e rest =>
      obtain ⟨a, p⟩ := e
      have := h a
      rw [listFor_cons, if_pos rfl] at this
      simp [agentListsWf_cons, ← this, listFor] at hm
  | cons e rest ih =>
    obtain ⟨a, p⟩ := e
    cases m with
    | nil =>
      have := h a
      rw [listFor_cons, if_pos rfl] at this
      simp [agentListsWf_cons, this, listFor] at hl
    | cons f more =>
      obtain ⟨b, q⟩ := f
      simp only [agentListsWf_cons, Bool.and_eq_true, Bool.not_eq_true', List.isEmpty_eq_false_iff] at hl hm
      have hab : a = b := by
        rcases Nat.lt_trichotomy a b with hlt | heq | hlt
        · have := h a
          rw [listFor_cons, if_pos rfl, listFor_cons, if_neg (by omega),
            listFor_of_headAbove hm.2 hm.1.2 (by omega)] at this
          exact absurd this hl.1.1
        · exact heq
        · have := h b
          rw [listFor_cons, if_neg (by omega), listFor_of_headAbove hl.2 hl.1.2 (by omega), listFor_cons,
            if_pos rfl] at this
          exact absurd this.symm hm.1.1
      subst hab
      have hpq : p = q := by simpa [listFor_cons] using h a
      subst hpq
      rw [ih hl.2 hm.2 fun c => ?_]
      by_cases hc : c = a
      · subst hc
        rw [listFor_of_headAbove hl.2 hl.1.2 (Nat.le_refl c), listFor_of_headAbove hm.2 hm.1.2 (Nat.le_refl c)]
      · simpa [listFor_cons, hc] using h c

theorem agentListsWf_nextPrograms {s : State} (h : agentListsWf s.programs = true) :
    agentListsWf (nextPrograms s) = true := agentListsWf_setListFor _ _ h

end Sys2Proof.Machine
end

