-- ==== Sys2Proof/Laws/Machine.lean ====
section
/-! SUPPORT. What one step can do, said once: the cases of every meaning with their guards, and the cases of `step` by
whose turn it is. Later proofs split on these instead of unfolding the meanings. -/

namespace Sys2Proof.Machine

/-- The state an operation leads to. -/
def ran (i : Instr) (s : State) : State :=
  match i with
  | .init pinA pinB pulses => initStep pinA pinB pulses s
  | .initNull => initNullStep s
  | .deinit => deinitStep s
  | .get => getStep s
  | .reset => resetStep s
  | .isr => isrStep s
  | .pins q => pinsStep q s

/-- Every operation ends in a next state, in every state (R8: holds, faults and refusals included). -/
theorem exec_eq_next (i : Instr) (s : State) : exec i s = .next (ran i s) := by cases i <;> rfl

theorem exec_next_iff {i : Instr} {s t : State} : exec i s = .next t ↔ ran i s = t := by
  rw [exec_eq_next]; exact ⟨fun h => by injection h, fun h => by rw [h]⟩

theorem initStep_cases (pinA pinB : PinId) (pulses : Pulses) (s : State) :
    (s.own ≠ .none ∧ initStep pinA pinB pulses s = s) ∨
    (s.own = .none ∧ s.life = .initialized ∧
      initStep pinA pinB pulses s = s.refuse .initWhileInitialized) ∨
    (s.own = .none ∧ s.life = .uninitialized ∧ configValid s.params pinA pinB pulses = false ∧
      initStep pinA pinB pulses s = s.answer .invalidArgument) ∨
    (∃ code, s.own = .none ∧ s.life = .uninitialized ∧ configValid s.params pinA pinB pulses = true ∧
      bindOf s.drawn = some code ∧ initStep pinA pinB pulses s = s.afterDraw.answer (.platformError code)) ∨
    (s.own = .none ∧ s.life = .uninitialized ∧ configValid s.params pinA pinB pulses = true ∧
      bindOf s.drawn = none ∧ initStep pinA pinB pulses s = (s.afterDraw.commitInit pulses).answer .ok) := by
  unfold initStep initUninitialized
  cases hl : s.life <;> by_cases ho : s.own = .none <;> cases hc : configValid s.params pinA pinB pulses <;>
    cases hb : bindOf s.drawn <;> simp [ho]

theorem initNullStep_cases (s : State) :
    (s.own ≠ .none ∧ initNullStep s = s) ∨
    (s.own = .none ∧ s.life = .initialized ∧ initNullStep s = s.refuse .initWhileInitialized) ∨
    (s.own = .none ∧ s.life = .uninitialized ∧ initNullStep s = s.answer .invalidArgument) := by
  unfold initNullStep
  cases hl : s.life <;> by_cases ho : s.own = .none <;> simp [ho]

theorem deinitStep_cases (s : State) :
    (s.life = .uninitialized ∧ deinitStep s = s.answer .failed) ∨
    (s.life = .initialized ∧ s.own ≠ .none ∧ deinitStep s = s) ∨
    (s.life = .initialized ∧ s.own = .none ∧
      deinitStep s = State.answer { s with irq := false, life := .uninitialized } .ok) := by
  unfold deinitStep
  cases hl : s.life <;> by_cases ho : s.own = .none <;> simp [ho]

theorem getStep_cases (s : State) :
    (s.life = .uninitialized ∧ getStep s = s.answer .notInitialized) ∨
    (s.life = .initialized ∧ s.own = .none ∧ getStep s = s.answer (.okValue s.acc)) ∨
    (s.life = .initialized ∧ s.own ≠ .none ∧
      getStep s = s.afterDraw.answer (.okValue (racingOf s.params.readAtomic s.acc s.wpend s.drawn))) := by
  unfold getStep
  cases hl : s.life <;> by_cases ho : s.own = .none <;> simp [ho]

theorem resetStep_cases (s : State) :
    (s.own = .ctrl ∧ s.caller = s.actor ∧ resetStep s = s.commitWrite.answer .ok) ∨
    (¬ (s.own = .ctrl ∧ s.caller = s.actor) ∧ s.life = .uninitialized ∧ resetStep s = s.answer .notInitialized) ∨
    (¬ (s.own = .ctrl ∧ s.caller = s.actor) ∧ s.life = .initialized ∧ s.own ≠ .none ∧ resetStep s = s) ∨
    (s.life = .initialized ∧ s.own = .none ∧
      resetStep s = { s with own := .ctrl, caller := s.actor, wpend := f0 }) := by
  unfold resetStep resetBegin resetCommit
  by_cases hc : s.own = .ctrl ∧ s.caller = s.actor
  · exact .inl ⟨hc.1, hc.2, if_pos hc⟩
  · simp only [hc, not_false_iff, true_and]
    cases hl : s.life <;> by_cases ho : s.own = .none <;> simp [ho]

theorem decoderReady_iff (s : State) :
    decoderReady s = true ↔ s.irq = true ∧ s.life = .initialized ∧ s.own = .none := by
  simp [decoderReady, and_assoc]

theorem isrStep_cases (s : State) :
    (s.own = .dec ∧ s.decoding = true ∧ isrStep s = s.commitWrite) ∨
    (∃ first level, s.own = .dec ∧ s.params.sampleSkew = true ∧ s.slatch = some (first, level) ∧
      isrStep s = decBeginSkewed first level s) ∨
    (s.irq = true ∧ s.life = .initialized ∧ s.own = .none ∧ s.params.sampleSkew = false ∧
      isrStep s = decBegin s) ∨
    (s.irq = true ∧ s.life = .initialized ∧ s.own = .none ∧ s.params.sampleSkew = true ∧ s.slatch = none ∧
      isrStep s = decSample s) ∨
    (s.own ≠ .dec ∧ (decoderReady s = false ∨ s.params.sampleSkew = true ∧ s.slatch ≠ none) ∧ isrStep s = s) := by
  by_cases ho : s.own = .dec
  · unfold isrStep decodeResume
    rw [if_pos ho]
    cases hk : s.params.sampleSkew
    · exact .inl ⟨ho, by simp [State.decoding, ho, hk], rfl⟩
    · cases hl : s.slatch with
      | none => exact .inl ⟨ho, by simp [State.decoding, ho, hl], rfl⟩
      | some e => exact .inr (.inl ⟨e.1, e.2, ho, rfl, rfl, rfl⟩)
  · unfold isrStep decodeStart
    rw [if_neg ho]
    cases hr : decoderReady s
    · exact .inr (.inr (.inr (.inr ⟨ho, .inl rfl, rfl⟩)))
    · obtain ⟨h1, h2, h3⟩ := (decoderReady_iff s).1 hr
      cases hk : s.params.sampleSkew
      · exact .inr (.inr (.inl ⟨h1, h2, h3, rfl, rfl⟩))
      · by_cases hl : s.slatch = none
        · exact .inr (.inr (.inr (.inl ⟨h1, h2, h3, rfl, hl, by simp [hl]⟩)))
        · exact .inr (.inr (.inr (.inr ⟨ho, .inr ⟨rfl, hl⟩, by simp [hl]⟩)))

/-- The lookup finds a word exactly for a row of 0 to 6. -/
theorem lookup_eq_none_iff (t : Rom) (sub : RomWord) (p : Phase) :
    lookup t sub p = none ↔ 6 < (rowOf sub).toNat := by
  unfold lookup
  split <;> simp <;> omega

theorem lookup_of_row (t : Rom) {sub : RomWord} (p : Phase) (r : Fin 7) (h : (rowOf sub).toNat = r.val) :
    lookup t sub p = some (t.word r p) := by
  have hr : (⟨(rowOf sub).toNat, by omega⟩ : Fin 7) = r := Fin.ext h
  unfold lookup
  rw [dif_pos (by omega), hr]

theorem lookup_eq_some {t : Rom} {sub w : RomWord} {p : Phase} (h : lookup t sub p = some w) :
    ∃ r : Fin 7, (rowOf sub).toNat = r.val ∧ w = t.word r p := by
  unfold lookup at h
  split at h
  · rename_i hr
    exact ⟨⟨_, hr⟩, rfl, by injection h with h; exact h.symm⟩
  · exact absurd h (by simp)

theorem decBegin_cases (s : State) :
    (6 < (rowOf s.sub).toNat ∧ decBegin s = s.raiseFault .badRow) ∨
    (∃ (r : Fin 7), (rowOf s.sub).toNat = r.val ∧
      decBegin s = State.storeWord { s with irq := false } (s.params.tt.word r s.phase)) := by
  unfold decBegin
  cases h : lookup s.params.tt s.sub s.phase with
  | none => exact .inl ⟨(lookup_eq_none_iff ..).1 h, rfl⟩
  | some w =>
    obtain ⟨r, hr, rfl⟩ := lookup_eq_some h
    exact .inr ⟨r, hr, rfl⟩

theorem decBeginSkewed_cases (first : PhaseBit) (level : Bool) (s : State) :
    (6 < (rowOf s.sub).toNat ∧ decBeginSkewed first level s = s.raiseFault .badRow) ∨
    (∃ (r : Fin 7), (rowOf s.sub).toNat = r.val ∧
      decBeginSkewed first level s =
        State.storeWord { s with slatch := none } (s.params.tt.word r (joinPhase first level s.phase))) := by
  unfold decBeginSkewed
  cases h : lookup s.params.tt s.sub (joinPhase first level s.phase) with
  | none => exact .inl ⟨(lookup_eq_none_iff ..).1 h, rfl⟩
  | some w =>
    obtain ⟨r, hr, rfl⟩ := lookup_eq_some h
    exact .inr ⟨r, hr, rfl⟩

/-- The end of DEC_BEGIN: a tagged word starts a write, an untagged one ends the decode. -/
theorem storeWord_cases (s : State) (w : RomWord) :
    (∃ v, actionValue s.params.fp (dispatch s.params (tagOf w)) s.acc s.stepReg = some v ∧
      s.storeWord w = { s with sub := w, wpend := v, own := .dec }) ∨
    (actionValue s.params.fp (dispatch s.params (tagOf w)) s.acc s.stepReg = none ∧ s.storeWord w = { s with sub := w, own := .none }) := by
  cases h : actionValue s.params.fp (dispatch s.params (tagOf w)) s.acc s.stepReg with
  | none => exact .inr ⟨rfl, s.storeWord_of_none h⟩
  | some v => exact .inl ⟨v, rfl, s.storeWord_of_value h⟩

theorem dispatch_eq_plus_iff (P : Params) (t : Nibble) : dispatch P t = .plus ↔ t = P.tagCw := by
  unfold dispatch; by_cases h1 : t = P.tagCw <;> by_cases h2 : t = P.tagCcw <;> simp_all

theorem dispatch_eq_minus_iff (P : Params) (t : Nibble) : dispatch P t = .minus ↔ t ≠ P.tagCw ∧ t = P.tagCcw := by
  unfold dispatch; by_cases h1 : t = P.tagCw <;> by_cases h2 : t = P.tagCcw <;> simp_all

theorem dispatch_eq_none_iff (P : Params) (t : Nibble) : dispatch P t = .none ↔ t ≠ P.tagCw ∧ t ≠ P.tagCcw := by
  unfold dispatch; by_cases h1 : t = P.tagCw <;> by_cases h2 : t = P.tagCcw <;> simp_all

/-- What the tag of a word makes of `ACC` and `STEP`. -/
theorem actionValue_dispatch_eq_some (fp : FpFormat) (P : Params) (t : Nibble) (x y v : F64) :
    actionValue fp (dispatch P t) x y = some v ↔
      (t = P.tagCw ∧ fpAdd fp x y = v) ∨ (t ≠ P.tagCw ∧ t = P.tagCcw ∧ fpSub fp x y = v) := by
  unfold dispatch; by_cases h1 : t = P.tagCw <;> by_cases h2 : t = P.tagCcw <;>
    simp_all [actionValue]

theorem actionValue_dispatch_eq_none (fp : FpFormat) (P : Params) (t : Nibble) (x y : F64) :
    actionValue fp (dispatch P t) x y = none ↔ t ≠ P.tagCw ∧ t ≠ P.tagCcw := by
  unfold dispatch; by_cases h1 : t = P.tagCw <;> by_cases h2 : t = P.tagCcw <;>
    simp_all [actionValue]

/-- One step, by whose turn it is. -/
theorem step_cases (s : State) :
    (step s = .next { s with sched := s.sched.tail }) ∨
    (∃ a ts c rest r, s.sched = .agent a :: ts ∧ listFor s.programs a = c :: rest ∧ decode c = .error r ∧
      step s = .next (State.refuse { s with sched := ts, actor := a } r)) ∨
    (∃ a ts c rest i, s.sched = .agent a :: ts ∧ listFor s.programs a = c :: rest ∧ decode c = .ok i ∧
      step s = .next (ran i { s with sched := ts, actor := a })) ∨
    (∃ ts, s.sched = .decoder :: ts ∧ step s = .next (isrStep { s with sched := ts })) ∨
    (∃ ts q qs, s.sched = .environment :: ts ∧ s.script = q :: qs ∧
      step s = .next (pinsStep q { s with sched := ts, script := qs })) := by
  unfold step fetch
  cases hs : s.sched with
  | nil => left; cases s; cases hs; rfl
  | cons turn ts =>
    cases turn with
    | decoder => exact .inr (.inr (.inr (.inl ⟨ts, rfl, rfl⟩)))
    | environment =>
      simp only [fetchEnvironment]
      cases hq : s.script with
      | nil => left; simp [← hq]
      | cons q qs => exact .inr (.inr (.inr (.inr ⟨ts, q, qs, rfl, rfl, rfl⟩)))
    | agent a =>
      simp only [fetchAgent]
      cases hp : listFor s.programs a with
      | nil => left; simp
      | cons c rest =>
        cases hd : decode c with
        | error r => exact .inr (.inl ⟨a, ts, c, rest, r, rfl, hp, hd, by simp [hd]⟩)
        | ok i => exact .inr (.inr (.inl ⟨a, ts, c, rest, i, rfl, hp, hd, by simp [hd, exec_eq_next]⟩))

theorem step_eq_next (s : State) : ∃ t, step s = .next t := by
  rcases step_cases s with h | ⟨_, _, _, _, _, _, _, _, h⟩ | ⟨_, _, _, _, _, _, _, _, h⟩ | ⟨_, _, h⟩ |
    ⟨_, _, _, _, _, h⟩ <;> exact ⟨_, h⟩

/-- A decoded word is a command: the decode and the environment's step have no word (R36). -/
theorem isCommand_of_decode {c : Command} {i : Instr} (h : decode c = .ok i) : i.isCommand = true := by
  unfold decode withoutReserved at h
  repeat' split at h
  all_goals first | (injection h with h; subst h; rfl) | exact absurd h (by simp)

end Sys2Proof.Machine
end

