-- ==== Sys2Proof/Laws/Effect.lean ====
section
/-! SUPPORT. Everything an operation can do, as one inductive with a constructor for each atomic effect and its guards, and
the effects of `step` over it: an invariant or a whole-machine rule is then one goal per effect. -/

namespace Sys2Proof.Machine

/-- The effects of the operations: `Effect u i t` says that operation `i` run in state `u` leaves `t`, by one of the
cases of the rules. -/
inductive Effect (u : State) : Instr → State → Prop where
  | holdInit {pinA pinB pulses} : u.own ≠ .none → Effect u (.init pinA pinB pulses) u
  | holdInitNull : u.own ≠ .none → Effect u .initNull u
  | holdDeinit : u.life = .initialized → u.own ≠ .none → Effect u .deinit u
  | holdReset : ¬ (u.own = .ctrl ∧ u.caller = u.actor) → u.life = .initialized → u.own ≠ .none → Effect u .reset u
  | holdIsr : u.own ≠ .dec → decoderReady u = false ∨ u.params.sampleSkew = true ∧ u.slatch ≠ none → Effect u .isr u
  | refuseInit {pinA pinB pulses} : u.own = .none → u.life = .initialized →
      Effect u (.init pinA pinB pulses) (u.refuse .initWhileInitialized)
  | refuseInitNull : u.own = .none → u.life = .initialized → Effect u .initNull (u.refuse .initWhileInitialized)
  | invalid {pinA pinB pulses} : u.own = .none → u.life = .uninitialized →
      configValid u.params pinA pinB pulses = false →
      Effect u (.init pinA pinB pulses) (u.answer .invalidArgument)
  | invalidNull : u.own = .none → u.life = .uninitialized → Effect u .initNull (u.answer .invalidArgument)
  | bindingFailed {pinA pinB pulses} (code : PlatformCode) : u.own = .none → u.life = .uninitialized →
      configValid u.params pinA pinB pulses = true → bindOf u.drawn = some code →
      Effect u (.init pinA pinB pulses) (u.afterDraw.answer (.platformError code))
  | commitInit {pinA pinB pulses} : u.own = .none → u.life = .uninitialized →
      configValid u.params pinA pinB pulses = true → bindOf u.drawn = none →
      Effect u (.init pinA pinB pulses) ((u.afterDraw.commitInit pulses).answer .ok)
  | deinitFailed : u.life = .uninitialized → Effect u .deinit (u.answer .failed)
  | deinit : u.life = .initialized → u.own = .none →
      Effect u .deinit (State.answer { u with irq := false, life := .uninitialized } .ok)
  | getNotInitialized : u.life = .uninitialized → Effect u .get (u.answer .notInitialized)
  | get : u.life = .initialized → u.own = .none → Effect u .get (u.answer (.okValue u.acc))
  | getRacing : u.life = .initialized → u.own ≠ .none →
      Effect u .get (u.afterDraw.answer (.okValue (racingOf u.params.readAtomic u.acc u.wpend u.drawn)))
  | resetNotInitialized : ¬ (u.own = .ctrl ∧ u.caller = u.actor) → u.life = .uninitialized →
      Effect u .reset (u.answer .notInitialized)
  | resetBegin : u.life = .initialized → u.own = .none →
      Effect u .reset { u with own := .ctrl, caller := u.actor, wpend := f0 }
  | resetCommit : u.own = .ctrl → u.caller = u.actor → Effect u .reset (u.commitWrite.answer .ok)
  | sample : u.irq = true → u.life = .initialized → u.own = .none → u.params.sampleSkew = true → u.slatch = none →
      Effect u .isr (decSample u)
  | badRow : u.irq = true → u.life = .initialized → u.own = .none → u.params.sampleSkew = false →
      6 < (rowOf u.sub).toNat → Effect u .isr (u.raiseFault .badRow)
  | begin (r : Fin 7) : u.irq = true → u.life = .initialized → u.own = .none → u.params.sampleSkew = false →
      (rowOf u.sub).toNat = r.val →
      Effect u .isr (State.storeWord { u with irq := false } (u.params.tt.word r u.phase))
  | badRowSkewed : u.own = .dec → u.params.sampleSkew = true → u.slatch.isSome = true →
      6 < (rowOf u.sub).toNat → Effect u .isr (u.raiseFault .badRow)
  | beginSkewed (first : PhaseBit) (level : Bool) (r : Fin 7) : u.own = .dec → u.params.sampleSkew = true →
      u.slatch = some (first, level) → (rowOf u.sub).toNat = r.val →
      Effect u .isr
        (State.storeWord { u with slatch := none } (u.params.tt.word r (joinPhase first level u.phase)))
  | decCommit : u.own = .dec → u.decoding = true → Effect u .isr u.commitWrite
  | pins (q : Phase) : Effect u (.pins q) (pinsStep q u)

/-- Every operation has one of the effects. -/
theorem effect_ran (i : Instr) (u : State) : Effect u i (ran i u) := by
  cases i with
  | init pinA pinB pulses =>
    rcases initStep_cases pinA pinB pulses u with
      ⟨h, e⟩ | ⟨h1, h2, e⟩ | ⟨h1, h2, h3, e⟩ | ⟨c, h1, h2, h3, h4, e⟩ | ⟨h1, h2, h3, h4, e⟩ <;> simp only [ran, e]
    · exact .holdInit h
    · exact .refuseInit h1 h2
    · exact .invalid h1 h2 h3
    · exact .bindingFailed c h1 h2 h3 h4
    · exact .commitInit h1 h2 h3 h4
  | initNull =>
    rcases initNullStep_cases u with ⟨h, e⟩ | ⟨h1, h2, e⟩ | ⟨h1, h2, e⟩ <;> simp only [ran, e]
    · exact .holdInitNull h
    · exact .refuseInitNull h1 h2
    · exact .invalidNull h1 h2
  | deinit =>
    rcases deinitStep_cases u with ⟨h, e⟩ | ⟨h1, h2, e⟩ | ⟨h1, h2, e⟩ <;> simp only [ran, e]
    · exact .deinitFailed h
    · exact .holdDeinit h1 h2
    · exact .deinit h1 h2
  | get =>
    rcases getStep_cases u with ⟨h, e⟩ | ⟨h1, h2, e⟩ | ⟨h1, h2, e⟩ <;> simp only [ran, e]
    · exact .getNotInitialized h
    · exact .get h1 h2
    · exact .getRacing h1 h2
  | reset =>
    rcases resetStep_cases u with ⟨h1, h2, e⟩ | ⟨h1, h2, e⟩ | ⟨h1, h2, h3, e⟩ | ⟨h1, h2, e⟩ <;> simp only [ran, e]
    · exact .resetCommit h1 h2
    · exact .resetNotInitialized h1 h2
    · exact .holdReset h1 h2 h3
    · exact .resetBegin h1 h2
  | isr =>
    rcases isrStep_cases u with
      ⟨h1, h2, e⟩ | ⟨f, l, h1, h2, h3, e⟩ | ⟨h1, h2, h3, h4, e⟩ | ⟨h1, h2, h3, h4, h5, e⟩ | ⟨h1, h2, e⟩ <;>
      simp only [ran, e]
    · exact .decCommit h1 h2
    · rcases decBeginSkewed_cases f l u with ⟨hr, e⟩ | ⟨r, hr, e⟩ <;> rw [e]
      · exact .badRowSkewed h1 h2 (by rw [h3]; rfl) hr
      · exact .beginSkewed f l r h1 h2 h3 hr
    · rcases decBegin_cases u with ⟨hr, e⟩ | ⟨r, hr, e⟩ <;> rw [e]
      · exact .badRow h1 h2 h3 h4 hr
      · exact .begin r h1 h2 h3 h4 hr
    · exact .sample h1 h2 h3 h4 h5
    · exact .holdIsr h1 h2
  | pins q => exact .pins q

theorem effect_of_exec {i : Instr} {u t : State} (h : exec i u = .next t) : Effect u i t := by
  rw [exec_next_iff] at h
  exact h ▸ effect_ran i u

/-- The effects of a step: an idle turn, a command word refused by its encoding, or an effect of the operation the turn
runs. -/
inductive StepEffect (s : State) : State → Prop where
  | idle : StepEffect s { s with sched := s.sched.tail }
  | refused (a : Nat) (ts : List Turn) (c : Command) (rest : List Command) (r : RefuseReason) :
      s.sched = .agent a :: ts → listFor s.programs a = c :: rest → decode c = .error r →
      StepEffect s (State.refuse { s with sched := ts, actor := a } r)
  | command (a : Nat) (ts : List Turn) (c : Command) (rest : List Command) (i : Instr) (t : State) :
      s.sched = .agent a :: ts → listFor s.programs a = c :: rest → decode c = .ok i → i.isCommand = true →
      Effect { s with sched := ts, actor := a } i t → StepEffect s t
  | decoder (ts : List Turn) (t : State) :
      s.sched = .decoder :: ts → Effect { s with sched := ts } .isr t → StepEffect s t
  | environment (ts : List Turn) (q : Phase) (qs : List Phase) :
      s.sched = .environment :: ts → s.script = q :: qs →
      StepEffect s (pinsStep q { s with sched := ts, script := qs })

/-- Every step has one of the effects: `cases step_effect h` is the case split a whole-machine rule needs. -/
theorem step_effect {s t : State} (h : step s = .next t) : StepEffect s t := by
  rcases step_cases s with e | ⟨a, ts, c, rest, r, h1, h2, h3, e⟩ | ⟨a, ts, c, rest, i, h1, h2, h3, e⟩ |
    ⟨ts, h1, e⟩ | ⟨ts, q, qs, h1, h2, e⟩ <;> rw [e] at h <;> injection h with h <;> subst h
  · exact .idle
  · exact .refused a ts c rest r h1 h2 h3
  · exact .command a ts c rest i _ h1 h2 h3 (isCommand_of_decode h3) (effect_ran i _)
  · exact .decoder ts _ h1 (effect_ran .isr _)
  · exact .environment ts q qs h1 h2

/-! ### The operations that are no `State` updates of their own, field by field -/

@[simp] theorem decSample_slatch (s : State) :
    (decSample s).slatch = some (firstOf s.drawn, levelOf (firstOf s.drawn) s.phase) := rfl
@[simp] theorem pinsStep_irq (q : Phase) (s : State) :
    (pinsStep q s).irq = (s.irq || edgeLatched s.life s.phase q) := rfl
@[simp] theorem pinsStep_phase (q : Phase) (s : State) : (pinsStep q s).phase = q := rfl
@[simp] theorem decSample_sub (s : State) : (decSample s).sub = s.sub := rfl
@[simp] theorem decSample_acc (s : State) : (decSample s).acc = s.acc := rfl
@[simp] theorem decSample_stepReg (s : State) : (decSample s).stepReg = s.stepReg := rfl
@[simp] theorem decSample_life (s : State) : (decSample s).life = s.life := rfl
@[simp] theorem decSample_own (s : State) : (decSample s).own = Own.dec := rfl
@[simp] theorem decSample_wpend (s : State) : (decSample s).wpend = s.wpend := rfl
@[simp] theorem decSample_caller (s : State) : (decSample s).caller = s.caller := rfl
@[simp] theorem decSample_irq (s : State) : (decSample s).irq = false := rfl
@[simp] theorem decSample_faultMarks (s : State) : (decSample s).faultMarks = s.faultMarks := rfl
@[simp] theorem decSample_refusedMarks (s : State) : (decSample s).refusedMarks = s.refusedMarks := rfl
@[simp] theorem decSample_phase (s : State) : (decSample s).phase = s.phase := rfl
@[simp] theorem decSample_params (s : State) : (decSample s).params = s.params := rfl
@[simp] theorem decSample_programs (s : State) : (decSample s).programs = s.programs := rfl
@[simp] theorem decSample_script (s : State) : (decSample s).script = s.script := rfl
@[simp] theorem decSample_returned (s : State) : (decSample s).returned = s.returned := rfl
@[simp] theorem decSample_sched (s : State) : (decSample s).sched = s.sched := rfl
@[simp] theorem decSample_actor (s : State) : (decSample s).actor = s.actor := rfl
@[simp] theorem decSample_inputs (s : State) : (decSample s).inputs = s.inputs.tail := rfl
@[simp] theorem decSample_draws (s : State) : (decSample s).draws = if s.inputs.isEmpty then s.draws + 1 else s.draws := rfl
@[simp] theorem pinsStep_sub (q : Phase) (s : State) : (pinsStep q s).sub = s.sub := rfl
@[simp] theorem pinsStep_acc (q : Phase) (s : State) : (pinsStep q s).acc = s.acc := rfl
@[simp] theorem pinsStep_stepReg (q : Phase) (s : State) : (pinsStep q s).stepReg = s.stepReg := rfl
@[simp] theorem pinsStep_life (q : Phase) (s : State) : (pinsStep q s).life = s.life := rfl
@[simp] theorem pinsStep_own (q : Phase) (s : State) : (pinsStep q s).own = s.own := rfl
@[simp] theorem pinsStep_wpend (q : Phase) (s : State) : (pinsStep q s).wpend = s.wpend := rfl
@[simp] theorem pinsStep_caller (q : Phase) (s : State) : (pinsStep q s).caller = s.caller := rfl
@[simp] theorem pinsStep_slatch (q : Phase) (s : State) : (pinsStep q s).slatch = s.slatch := rfl
@[simp] theorem pinsStep_faultMarks (q : Phase) (s : State) : (pinsStep q s).faultMarks = s.faultMarks := rfl
@[simp] theorem pinsStep_refusedMarks (q : Phase) (s : State) : (pinsStep q s).refusedMarks = s.refusedMarks := rfl
@[simp] theorem pinsStep_params (q : Phase) (s : State) : (pinsStep q s).params = s.params := rfl
@[simp] theorem pinsStep_programs (q : Phase) (s : State) : (pinsStep q s).programs = s.programs := rfl
@[simp] theorem pinsStep_script (q : Phase) (s : State) : (pinsStep q s).script = s.script := rfl
@[simp] theorem pinsStep_returned (q : Phase) (s : State) : (pinsStep q s).returned = s.returned := rfl
@[simp] theorem pinsStep_sched (q : Phase) (s : State) : (pinsStep q s).sched = s.sched := rfl
@[simp] theorem pinsStep_actor (q : Phase) (s : State) : (pinsStep q s).actor = s.actor := rfl
@[simp] theorem pinsStep_inputs (q : Phase) (s : State) : (pinsStep q s).inputs = s.inputs := rfl
@[simp] theorem pinsStep_draws (q : Phase) (s : State) : (pinsStep q s).draws = s.draws := rfl

end Sys2Proof.Machine
end

