-- ==== Sys2Proof/Laws/Observation.lean ====
section
/-! SUPPORT. What was told to each agent (R100): the lists of `toldLists` are in canonical form, and reading one gives what
that agent was told, in its order. -/

namespace Sys2Proof.Machine

/-- What one agent was told, of what was returned to all. -/
def toldFrom (returned : List (Nat × Status)) (a : Nat) : List Status :=
  (returned.filter fun r => r.1 == a).map fun r => r.2

theorem toldTo_eq (s : State) (a : Nat) : s.toldTo a = toldFrom s.returned a := rfl

/-- Going on from lists in canonical form keeps the form and appends to each agent's list what it was told. -/
theorem toldLists_from (returned : List (Nat × Status)) {l : List (Nat × List Status)} (hw : agentListsWf l = true) :
    agentListsWf (returned.foldl (fun l r => setListFor l r.1 (listFor l r.1 ++ [r.2])) l) = true ∧
    ∀ a, listFor (returned.foldl (fun l r => setListFor l r.1 (listFor l r.1 ++ [r.2])) l) a =
      listFor l a ++ toldFrom returned a := by
  induction returned generalizing l with
  | nil => simp [hw, toldFrom]
  | cons r rest ih =>
    obtain ⟨h1, h2⟩ := ih (agentListsWf_setListFor r.1 (listFor l r.1 ++ [r.2]) hw)
    refine ⟨h1, fun a => ?_⟩
    rw [List.foldl_cons, h2 a]
    by_cases h : r.1 = a
    · subst h
      rw [listFor_setListFor_self r.1 _ hw]
      simp [toldFrom]
    · rw [listFor_setListFor_other _ (Ne.symm h)]
      simp [toldFrom, h]

theorem agentListsWf_toldLists (returned : List (Nat × Status)) : agentListsWf (toldLists returned) = true :=
  (toldLists_from returned (l := []) rfl).1

@[simp] theorem listFor_toldLists (returned : List (Nat × Status)) (a : Nat) :
    listFor (toldLists returned) a = toldFrom returned a := by
  simpa [listFor, toldLists] using (toldLists_from returned (l := []) rfl).2 a

end Sys2Proof.Machine
end

