-- ==== Sys2Proof/Laws/PerInstr.lean ====
section
/-! SUPPORT. What is said of each operation as syntax, one lemma per constructor: it is a command exactly when it has a
command word, and the word's `c[2:0]` is its operation code (R36, R40). -/

namespace Sys2Proof.Laws.CommandForm

/-- The operation code of a command (R40); the two operations without a command word have none. -/
def codeOf : Instr → Option (BitVec 3)
  | .init _ _ _ => some 0b001#3
  | .initNull => some 0b001#3
  | .deinit => some 0b010#3
  | .get => some 0b011#3
  | .reset => some 0b100#3
  | .isr => none
  | .pins _ => none

/-- A command has a word, which carries its operation code; an operation that is no command has none. -/
def Statement (i : Instr) : Prop :=
  (i.wf = true ↔ (encode i).isSome = true) ∧ (encode i).map opCode = codeOf i

/-- The fields of the word of `init` are not read by `c[2:0]`. -/
theorem opCode_initWord (pinA pinB : PinId) (pulses : Pulses) :
    opCode (pulses ++ 0x00#8 ++ pinB ++ pinA ++ 0x09#8) = 0b001#3 := by
  apply BitVec.eq_of_getLsbD_eq
  intro i hi
  simp only [opCode, BitVec.getLsbD_extractLsb', hi, decide_true, Bool.true_and, Nat.zero_add]
  rw [BitVec.getLsbD_append, if_pos (show i < 8 by omega)]
  revert hi
  revert i
  decide

theorem init (pinA pinB : PinId) (pulses : Pulses) : Statement (.init pinA pinB pulses) :=
  ⟨by simp [Instr.wf, Instr.isCommand, encode], by simp [encode, codeOf, opCode_initWord]⟩

theorem initNull : Statement .initNull := ⟨by decide, by decide⟩

theorem deinit : Statement .deinit := ⟨by decide, by decide⟩

theorem get : Statement .get := ⟨by decide, by decide⟩

theorem reset : Statement .reset := ⟨by decide, by decide⟩

theorem isr : Statement .isr := ⟨by decide, by decide⟩

theorem pins (q : Phase) : Statement (.pins q) :=
  ⟨by simp [Instr.wf, Instr.isCommand, encode], by simp [encode, codeOf]⟩

end Sys2Proof.Laws.CommandForm
end

