-- ==== Sys2Proof/Laws/Rom.lean ====
section
/-! SUPPORT. What admission of a ROM gives (R48 to R52), property by property and for every row and phase, and that the
computed list of reachable configurations holds all of `Reach`. -/

namespace Sys2Proof

namespace Rom

theorem mem_phases (p : Phase) : p ∈ phases := by revert p; decide

theorem mem_cfgs (c : Cfg) : c ∈ cfgs := by
  obtain ⟨r, p⟩ := c
  simp only [cfgs, List.mem_flatMap, List.mem_map]
  exact ⟨r, by revert r; decide, p, mem_phases p, rfl⟩

theorem mem_rows (r : Fin 7) : r ∈ rows := by revert r; decide

theorem rowOfWord_eq_some {w : RomWord} {r : Fin 7} : rowOfWord w = some r ↔ (w.extractLsb' 0 4).toNat = r.val := by
  unfold rowOfWord
  split
  · simp [Fin.ext_iff]
  · simp only [reduceCtorEq, false_iff]; omega

theorem phases_filter_eq (p : Phase) : (phases.filter fun q => decide (q = p)) = [p] := by revert p; decide

/-- A path whose first word names a row goes on from that row. -/
theorem path_cons {t : Rom} {r r' : Fin 7} {p : Phase} {ps : List Phase} (h : rowOfWord (t.word r p) = some r') :
    t.path r (p :: ps) = (t.word r p :: (t.path r' ps).1, (t.path r' ps).2) := by
  simp [path, h]

end Rom

namespace Params

open Rom

variable {P : Params}

theorem admitted_iff : P.admitted = true ↔
    P.tagsOk = true ∧ P.rangeOk = true ∧ P.homeTagsOk = true ∧ P.fullCyclesOk = true ∧
      P.tt.closed P.reachable = true ∧ P.doubleBitOk = true ∧ P.recoveryOk = true := by
  simp only [admitted, Bool.and_eq_true, and_assoc]

/-- The tags are not 0 and differ. -/
theorem tags_of_admitted (h : P.admitted = true) : P.tagCw ≠ 0#4 ∧ P.tagCcw ≠ 0#4 ∧ P.tagCw ≠ P.tagCcw := by
  have := (admitted_iff.1 h).1
  simpa [tagsOk, and_assoc] using this

/-- R48: a word of an admitted ROM names a row. -/
theorem rowOfWord_of_admitted (h : P.admitted = true) (r : Fin 7) (p : Phase) :
    ∃ r', rowOfWord (P.tt.word r p) = some r' := by
  have := List.all_eq_true.1 (admitted_iff.1 h).2.1 (r, p) (mem_cfgs _)
  simp only [Bool.and_eq_true] at this
  exact Option.isSome_iff_exists.1 this.1

/-- R48: a word of an admitted ROM has one of the three tags. -/
theorem tag_of_admitted (h : P.admitted = true) (r : Fin 7) (p : Phase) :
    tagOfWord (P.tt.word r p) = 0#4 ∨ tagOfWord (P.tt.word r p) = P.tagCw ∨ tagOfWord (P.tt.word r p) = P.tagCcw := by
  have := List.all_eq_true.1 (admitted_iff.1 h).2.1 (r, p) (mem_cfgs _)
  simp only [Bool.and_eq_true, Bool.or_eq_true, beq_iff_eq] at this
  tauto

/-- R49: a word with a tag goes home. -/
theorem home_of_tag (h : P.admitted = true) (r : Fin 7) (p : Phase) (ht : tagOfWord (P.tt.word r p) ≠ 0#4) :
    rowOfWord (P.tt.word r p) = some P.home := by
  have := List.all_eq_true.1 (admitted_iff.1 h).2.2.1 (r, p) (mem_cfgs _)
  simp only [Bool.or_eq_true, beq_iff_eq] at this
  exact this.resolve_left ht

theorem reachWithin_home (P : Params) (p : Phase) : ∀ n, (P.home, p) ∈ P.reachWithin n
  | 0 => List.mem_map.2 ⟨p, mem_phases p, rfl⟩
  | n + 1 => by
    simp only [reachWithin, grow, List.mem_filter, mem_cfgs, true_and, Bool.or_eq_true]
    exact .inl (List.contains_iff_mem.2 (reachWithin_home P p n))

/-- Every configuration of `Reach` is listed, once the list is closed. -/
theorem mem_reachable (h : P.admitted = true) {c : Cfg} (hc : P.Reach c) : c ∈ P.reachable := by
  induction hc with
  | home p => exact reachWithin_home P p 28
  | next q _ hr ih =>
    have hcl := List.all_eq_true.1 (List.all_eq_true.1 (admitted_iff.1 h).2.2.2.2.1 _ ih)
    refine List.contains_iff_mem.1 (hcl _ ?_)
    simp only [successors, List.mem_filterMap]
    exact ⟨q, mem_phases q, by rw [hr]; rfl⟩

/-- Every configuration listed is in `Reach`. -/
theorem reach_of_mem_reachWithin (n : Nat) {c : Cfg} (h : c ∈ P.reachWithin n) : P.Reach c := by
  induction n generalizing c with
  | zero =>
    obtain ⟨p, -, rfl⟩ := List.mem_map.1 h
    exact .home p
  | succ n ih =>
    simp only [reachWithin, grow, List.mem_filter, Bool.or_eq_true, List.contains_iff_mem, List.any_eq_true] at h
    obtain h | ⟨d, hd, hc⟩ := h.2
    · exact ih h
    · simp only [successors, List.mem_filterMap, Option.map_eq_some_iff] at hc
      obtain ⟨q, -, r, hr, rfl⟩ := hc
      exact .next q (ih hd) hr

theorem mem_reachable_iff (h : P.admitted = true) (c : Cfg) : c ∈ P.reachable ↔ P.Reach c :=
  ⟨reach_of_mem_reachWithin 28, mem_reachable h⟩

/-- A row entered by one phase only has that one phase in its list. -/
theorem entering_eq (h : P.admitted = true) {r : Fin 7} {p : Phase} (hp : P.Reach (r, p))
    (hu : ∀ q, P.Reach (r, q) → q = p) : P.entering r = [p] := by
  have he : ∀ q, P.reachable.contains (r, q) = decide (q = p) := by
    intro q
    rw [Bool.eq_iff_iff, List.contains_iff_mem, mem_reachable_iff h, decide_eq_true_iff]
    exact ⟨hu q, fun e => e ▸ hp⟩
  simp only [entering, he]
  exact phases_filter_eq p

/-- R51: no double-bit reading of a reachable configuration tags. -/
theorem doubleBit_untagged (h : P.admitted = true) {r : Fin 7} {p : Phase} (hc : P.Reach (r, p)) :
    tagOfWord (P.tt.word r (p ^^^ 3#2)) = 0#4 := by
  have := (admitted_iff.1 h).2.2.2.2.2.1
  simp only [doubleBitOk, Bool.and_eq_true] at this
  simpa using List.all_eq_true.1 this.1 _ (mem_reachable h hc)

/-- R51: from a row other than `HOME` that one phase only enters, a double-bit reading leads to `TRAP`. -/
theorem doubleBit_trap (h : P.admitted = true) {r : Fin 7} {p : Phase} (hc : P.Reach (r, p)) (hr : r ≠ P.home)
    (hu : ∀ q, P.Reach (r, q) → q = p) : rowOfWord (P.tt.word r (p ^^^ 3#2)) = some P.trap := by
  have := (admitted_iff.1 h).2.2.2.2.2.1
  simp only [doubleBitOk, Bool.and_eq_true] at this
  have h2 := List.all_eq_true.1 this.2 r (mem_rows r)
  rw [entering_eq h hc hu] at h2
  simp only [Bool.or_eq_true, Bool.and_eq_true, beq_iff_eq] at h2
  exact (h2.resolve_left hr).1

end Params

namespace Machine

theorem rowOf_eq (w : RomWord) : rowOf w = w.extractLsb' 0 4 := rfl
theorem tagOf_eq (w : RomWord) : tagOf w = Rom.tagOfWord w := rfl

@[simp] theorem rowOf_untaggedWord (r : Fin 7) : (rowOf (untaggedWord r)).toNat = r.val := by revert r; decide
@[simp] theorem tagOf_untaggedWord (r : Fin 7) : tagOf (untaggedWord r) = 0#4 := by revert r; decide

/-- The clockwise tag adds. -/
@[simp] theorem actionValue_tagCw (fp : FpFormat) (P : Params) (x y : F64) :
    actionValue fp (dispatch P P.tagCw) x y = some (fpAdd fp x y) := by
  simp [dispatch, actionValue]

/-- The counter-clockwise tag, when it is another one (R38), subtracts. -/
theorem actionValue_tagCcw {P : Params} (h : P.admitted = true) (fp : FpFormat) (x y : F64) :
    actionValue fp (dispatch P P.tagCcw) x y = some (fpSub fp x y) := by
  simp [dispatch, actionValue, (Params.tags_of_admitted h).2.2.symm]

/-- No tag does nothing. -/
theorem actionValue_untagged {P : Params} (h : P.admitted = true) (fp : FpFormat) (x y : F64) :
    actionValue fp (dispatch P 0#4) x y = none :=
  (actionValue_dispatch_eq_none ..).2 ⟨(Params.tags_of_admitted h).1.symm, (Params.tags_of_admitted h).2.1.symm⟩

/-- A word of an admitted ROM leaves the decoder in a row of 0 to 6 (R48). -/
theorem row_le_of_admitted {P : Params} (h : P.admitted = true) (r : Fin 7) (p : Phase) :
    (rowOf (P.tt.word r p)).toNat ≤ 6 := by
  obtain ⟨r', hr⟩ := P.rowOfWord_of_admitted h r p
  have := Rom.rowOfWord_eq_some.1 hr
  rw [rowOf_eq, this]; omega

end Machine

end Sys2Proof
end

