-- ==== Sys2Proof/Tests/Slice0.lean ====
section
/-! SUPPORT. The model's own tests. Expected values are the spec's: its vectors V-… of spec/95_test_vectors.md, its rules and
its examples; none is the model's own answer. After them, for every statement with hypotheses, a named witness: a
concrete state and operands that meet all of them together. -/

namespace Sys2Proof.Tests

open Sys2Proof.Machine

/-! ### Small states -/

/-- The conventions of spec/95_test_vectors.md: default ROM, pins 4, 5, 1, 2 valid, phase 3, power-on. -/
def powerOn : State :=
  { State.reset with params := { Config.blockParams with validPins := [4#8, 5#8, 1#8, 2#8] } }

/-- The draw `Ok` of BIND, as a free input. -/
def bindOk : BitVec 64 := 0#64

/-- `STEP = 1.0`. -/
def one : F64 := 0x3FF0000000000000#64

/-- Initialized with `STEP = 1.0`, a row and a position. -/
def live (sub : RomWord) (acc : F64) : State :=
  { powerOn with life := .initialized, sub := sub, acc := acc, stepReg := one, actor := 1 }

/-- Initialized with an edge pending at a phase. -/
def pending (sub : RomWord) (acc : F64) (p : Phase) : State := { live sub acc with irq := true, phase := p }

/-- A decode between its two steps, 6.0 pending over 5.0 (V-DEC-5's end). -/
def decodingState : State := { live 0x10#8 0x4014000000000000#64 with own := .dec, wpend := 0x4018000000000000#64 }

/-- Controller c1 between the two steps of its reset, over 7.5. -/
def resetting : State := { live 0x00#8 0x401E000000000000#64 with own := .ctrl, caller := 1, wpend := 0#64 }

/-- A block with skewed samples, or with atomic reads. -/
def withOptions (readAtomic sampleSkew : Bool) (s : State) : State :=
  { s with params := { s.params with readAtomic := readAtomic, sampleSkew := sampleSkew } }

/-- Agent `a` has one command as its program, and its turn comes next. -/
def withCommand (a : Nat) (c : Command) (s : State) : State := { s with programs := [(a, [c])], sched := [.agent a] }

/-- The state after an operation; the state itself where there is none. -/
def after (i : Instr) (s : State) : State :=
  match exec i s with
  | .next t => t
  | .fault _ => s
  | .refused _ => s

/-- The state after a step. -/
def stepped (s : State) : State :=
  match step s with
  | .next t => t
  | .fault _ => s
  | .refused _ => s

/-! ### Well-formedness: ill-formed terms are refused -/

/-- The block's parameters with one word of the default ROM replaced. -/
def romWith (r : Fin 7) (p : Fin 4) (w : RomWord) : Params :=
  { powerOn.params with tt := Config.defaultTT.set r.val (Config.defaultTT[r].set p.val w) }

theorem test_wf_isr_is_no_command : Instr.isr.wf = false := by decide
theorem test_wf_pins_is_no_command : (Instr.pins 2#2).wf = false := by decide
/-- R48: next row 7. -/
theorem test_wf_range_row : (romWith 2 0 0x07#8).rangeOk = false := by decide +kernel
/-- R48: tag 3. -/
theorem test_wf_range_tag : (romWith 1 3 0x30#8).rangeOk = false := by decide +kernel
/-- R49: a tagged word that does not go home. -/
theorem test_wf_home_tags : (romWith 3 2 0x11#8).homeTagsOk = false := by decide +kernel
/-- R50: the clockwise cycle without its tag. -/
theorem test_wf_full_cycles : (romWith 1 3 0x00#8).fullCyclesOk = false := by decide +kernel
/-- R51: a double-bit reading (0 to 3 in row 3) that tags. -/
theorem test_wf_double_bit_tag : (romWith 3 3 0x10#8).doubleBitOk = false := by decide +kernel
/-- R51: a double-bit reading (row 2, entered by 1, reading 2) that does not go to the trap. -/
theorem test_wf_double_bit_trap : (romWith 2 2 0x04#8).doubleBitOk = false := by decide +kernel
/-- R52: phase 3 in row 4 leads to row 2, where the counter-clockwise cycle is not counted. -/
theorem test_wf_recovery : (romWith 4 3 0x02#8).recoveryOk = false := by decide +kernel
/-- The configurations of row 0 alone are not closed. -/
theorem test_wf_closed : Config.defaultTT.closed (powerOn.params.reachWithin 0) = false := by decide +kernel
theorem test_wf_bad_table : (romWith 1 3 0x00#8).wf = false := by decide +kernel
/-- Equal tags, and a tag of 0, are no tags (D4). -/
theorem test_wf_tags : ({ powerOn.params with tagCcw := 1#4 } : Params).tagsOk = false ∧
    ({ powerOn.params with tagCw := 0#4 } : Params).tagsOk = false := by decide
theorem test_wf_default_options : powerOn.params.wf = true := by decide +kernel

/-! ### Decoding: words written out from R40 and R45 -/

/-- V-ENC-1: `{360, 0x00, 5, 4, 0x09}`. -/
theorem test_decode_init : decode 0x0000016800050409#64 = .ok (.init 4#8 5#8 360#32) := by decide
/-- V-ENC-3. -/
theorem test_decode_init_largest : decode 0xFFFFFFFF00020109#64 = .ok (.init 1#8 2#8 0xFFFFFFFF#32) := by decide
/-- V-ENC-4, V-ENC-6. -/
theorem test_decode_init_null : decode 0x0000000000000001#64 = .ok .initNull := by decide
theorem test_decode_deinit : decode 0x0000000000000002#64 = .ok .deinit := by decide
theorem test_decode_get : decode 0x0000000000000003#64 = .ok .get := by decide
theorem test_decode_reset : decode 0x0000000000000004#64 = .ok .reset := by decide
/-- V-ENC-7. -/
theorem test_decode_reserved_codes :
    [0#64, 5#64, 6#64, 7#64].all (fun c => decode c == .error .reservedCommand) = true := by decide
/-- V-ENC-8 to V-ENC-13. -/
theorem test_decode_reserved_bits :
    [0x13#64, 0x401#64, 0x0000016800050419#64, 0x0000016801050409#64, 0x8000000000000004#64].all
      (fun c => decode c == .error .reservedBits) = true := by decide
/-- R36: `isr` and `pins` have no command word. -/
theorem test_encode_isr : encode .isr = none := by decide
theorem test_encode_pins : encode (.pins 1#2) = none := by decide
/-- R45's encoding column. -/
theorem test_encode_init : encode (.init 4#8 5#8 360#32) = some 0x0000016800050409#64 := by decide
/-- The opcode table's numbering is R40's. -/
theorem test_decodeTableWord : decodeTableWord 64 0x0000016800050409 = some (.init 4#8 5#8 360#32) := by decide

/-! ### Fields and the ROM -/

/-- R39's vector: `SUB = 0x25` is row 5, tag 2. -/
theorem test_sub_fields : rowOf 0x25#8 = 5#4 ∧ tagOf 0x25#8 = 2#4 := by decide
/-- V-ROM-1, with stale tags. -/
theorem test_lookup_stale_tag :
    lookup Config.defaultTT 0x10#8 1#2 = some 0x02#8 ∧ lookup Config.defaultTT 0x20#8 2#2 = some 0x04#8 ∧
    lookup Config.defaultTT 0x13#8 0#2 = some 0x03#8 ∧ lookup Config.defaultTT 0x26#8 1#2 = some 0x05#8 := by decide
/-- V-ROM-6. -/
theorem test_lookup_bad_row : lookup Config.defaultTT 0x07#8 0#2 = none ∧ lookup Config.defaultTT 0xFF#8 3#2 = none := by
  decide
/-- V-DEC-15. -/
theorem test_dispatch : [0x1#4, 0x2#4, 0x0#4, 0xF#4].map (dispatch powerOn.params) = [.plus, .minus, .none, .none] := by decide
/-- R37: bit 1 is B, bit 0 is A. -/
theorem test_phase_levels : levelOf .a 2#2 = false ∧ levelOf .b 2#2 = true := by decide
/-- R16, R17, R42: the numbers of `LIFE`, `OWN` and the statuses. -/
theorem test_codes :
    Life.initialized.code = 1#1 ∧ Own.dec.code = 1#2 ∧ Own.ctrl.code = 2#2 ∧ (Status.okValue one).code = 0#3 ∧
    [Status.ok, .invalidArgument, .notInitialized, .failed, .platformError 7#32].map Status.code =
      [0#3, 1#3, 2#3, 3#3, 4#3] ∧ (Status.platformError 7#32).payload = 7#32 := by decide

/-! ### Arithmetic -/

/-- V-CTL-1, the exact quotients. -/
theorem test_stepOf_exact :
    [1#32, 2#32, 3#32, 4#32, 360#32].map (stepOf .binary64) =
      [0x4076800000000000#64, 0x4066800000000000#64, 0x405E000000000000#64, 0x4056800000000000#64, one] := by
  decide +kernel
/-- V-CTL-1, the inexact quotients. -/
theorem test_stepOf_rounded :
    [7#32, 1000#32, 0xFFFFFFFF#32].map (stepOf .binary64) =
      [0x4049B6DB6DB6DB6E#64, 0x3FD70A3D70A3D70A#64, 0x3E76800000168000#64] := by decide +kernel
/-- V-FP-1: 0.36 added three times. -/
theorem test_fadd_rounds :
    applyTimes (fun x => fadd x 0x3FD70A3D70A3D70A#64) 2 0#64 = 0x3FE70A3D70A3D70A#64 ∧
    applyTimes (fun x => fadd x 0x3FD70A3D70A3D70A#64) 3 0#64 = 0x3FF147AE147AE148#64 := by decide +kernel
/-- V-FP-4: 360/7 added seven times. -/
theorem test_fadd_seven : applyTimes (fun x => fadd x 0x4049B6DB6DB6DB6E#64) 7 0#64 = 0x4076800000000001#64 := by
  decide +kernel
/-- V-FP-5: and subtracted seven times. -/
theorem test_fsub_seven :
    applyTimes (fun x => fsub x 0x4049B6DB6DB6DB6E#64) 7 0x4076800000000001#64 = 0xBD10000000000000#64 := by
  decide +kernel
/-- V-FP-3, V-FP-6, V-FP-7: an exact zero is +0.0; a tie goes to even; the sign of a difference. -/
theorem test_fadd_corners :
    fadd 0xBFF0000000000000#64 one = 0#64 ∧ fadd 0x4340000000000000#64 one = 0x4340000000000000#64 ∧
    fsub 0#64 one = 0xBFF0000000000000#64 := by decide +kernel

/-! ### One step of each operation -/

/-- R69's example. -/
theorem test_init_ok :
    (after (.init 4#8 5#8 360#32) { powerOn with inputs := [bindOk], irq := true, sub := 0x13#8 }).stepReg = one ∧
    (after (.init 4#8 5#8 360#32) { powerOn with inputs := [bindOk], irq := true, sub := 0x13#8 }).sub = 0x00#8 ∧
    (after (.init 4#8 5#8 360#32) { powerOn with inputs := [bindOk], irq := true, sub := 0x13#8 }).irq = false ∧
    (after (.init 4#8 5#8 360#32) { powerOn with inputs := [bindOk] }).life = .initialized := by decide +kernel
/-- V-CTL-3, V-SRC-8. -/
theorem test_init_errors :
    (after (.init 4#8 5#8 360#32) { powerOn with inputs := [0x00000001FFFFFFFF#64] }).returned =
      [(0, .platformError 0xFFFFFFFF#32)] ∧
    (after (.init 4#8 5#8 360#32) { powerOn with inputs := [0x00000001FFFFFFFF#64] }).life = .uninitialized ∧
    (after (.init 4#8 4#8 360#32) powerOn).returned = [(0, .invalidArgument)] ∧
    (after (.init 4#8 5#8 0#32) powerOn).returned = [(0, .invalidArgument)] ∧
    (after (.init 4#8 6#8 1#32) powerOn).returned = [(0, .invalidArgument)] := by decide +kernel
/-- V-CTL-2. -/
theorem test_initNull_invalid : (after .initNull powerOn).returned = [(0, .invalidArgument)] := by decide
/-- V-CTL-4, of the null form. -/
theorem test_initNull_refused :
    (after .initNull (live 0#8 0#64)).refusedMarks.initWhileInitialized = true ∧
    (after .initNull (live 0#8 0#64)).returned = [] := by decide
/-- V-CTL-5. -/
theorem test_deinit_ok :
    (after .deinit (pending 0x03#8 one 0#2)).returned = [(1, .ok)] ∧ (after .deinit (pending 0x03#8 one 0#2)).irq = false ∧
    (after .deinit (pending 0x03#8 one 0#2)).life = .uninitialized ∧ (after .deinit (pending 0x03#8 one 0#2)).acc = one := by
  decide
/-- V-CTL-6. -/
theorem test_deinit_failed : (after .deinit powerOn).returned = [(0, .failed)] := by decide
/-- V-GET-2. -/
theorem test_get_value :
    (after .get (live 0#8 0x4076800000000000#64)).returned = [(1, .okValue 0x4076800000000000#64)] := by decide
/-- V-GET-3, V-GET-4: a racing read is the draw, or with atomic reads the old or the new value. -/
theorem test_get_racing :
    (after .get { decodingState with inputs := [0xDEADBEEF00000000#64] }).returned =
      [(1, .okValue 0xDEADBEEF00000000#64)] ∧
    (after .get (withOptions true false { decodingState with inputs := [0#64] })).returned =
      [(1, .okValue 0x4014000000000000#64)] ∧
    (after .get (withOptions true false { decodingState with inputs := [1#64] })).returned =
      [(1, .okValue 0x4018000000000000#64)] := by decide
/-- V-RST-2. -/
theorem test_reset_both_steps :
    (after .reset (after .reset (live 0x03#8 0xC056800000000000#64))).acc = 0#64 ∧
    (after .reset (after .reset (live 0x03#8 0xC056800000000000#64))).sub = 0x03#8 ∧
    (after .reset (after .reset (live 0x03#8 0xC056800000000000#64))).returned = [(1, .ok)] ∧
    (after .reset (live 0x03#8 0xC056800000000000#64)).acc = 0xC056800000000000#64 := by decide
/-- V-RST-3, V-RST-4: held while the decoder or another controller has the token. -/
theorem test_reset_holds :
    after .reset decodingState = decodingState ∧
    after .reset { resetting with actor := 2 } = { resetting with actor := 2 } := by decide
/-- V-DEC-5, V-DEC-6. -/
theorem test_isr_begin_and_commit :
    (after .isr (pending 0x01#8 0x4014000000000000#64 3#2)).sub = 0x10#8 ∧
    (after .isr (pending 0x01#8 0x4014000000000000#64 3#2)).wpend = 0x4018000000000000#64 ∧
    (after .isr (pending 0x01#8 0x4014000000000000#64 3#2)).acc = 0x4014000000000000#64 ∧
    (after .isr decodingState).acc = 0x4018000000000000#64 ∧ (after .isr decodingState).own = .none := by decide +kernel
/-- V-DEC-14: `DEC_SAMPLE` draws A, then the phase is 0, then the skewed `DEC_BEGIN` decodes phase 1. -/
theorem test_isr_skewed :
    (after .isr (after (.pins 0#2) (after .isr (withOptions false true { pending 0#8 0#64 3#2 with inputs := [0#64] })))).sub
      = 0x02#8 ∧
    (after .isr (after (.pins 0#2) (after .isr (withOptions false true { pending 0#8 0#64 3#2 with inputs := [0#64] })))).irq
      = true := by decide
/-- V-DEC-1. -/
theorem test_pins_edge : (after (.pins 1#2) (live 0#8 0#64)).irq = true ∧ (after (.pins 1#2) (live 0#8 0#64)).phase = 1#2 := by
  decide
/-- V-DEC-2, V-DEC-3. -/
theorem test_pins_no_edge : (after (.pins 3#2) (live 0#8 0#64)).irq = false ∧ (after (.pins 1#2) powerOn).irq = false := by
  decide

/-- R100: two agents told in the two orders are the same observation; one agent told in two orders is not. -/
theorem test_observe_per_agent :
    ({ powerOn with returned := [(1, .ok), (2, .failed), (1, .failed)] } : State).observe =
      ({ powerOn with returned := [(2, .failed), (1, .ok), (1, .failed)] } : State).observe ∧
    ({ powerOn with returned := [(1, .ok), (1, .failed)] } : State).observe ≠
      ({ powerOn with returned := [(1, .failed), (1, .ok)] } : State).observe := by decide
/-- R5: with other tags a word's tag 0x2 is the one that adds. -/
theorem test_isr_other_tags :
    (after .isr { pending 0x05#8 0#64 3#2 with
      params := { powerOn.params with tagCw := 2#4, tagCcw := 1#4 } }).wpend = one := by decide +kernel

/-- The word that `withFetchWord` stores is the next thing `step` runs (V-SRC-6: `get` right after power-on). -/
theorem test_withFetchWord :
    (stepped (State.reset.withFetchWord 64 3)).returned = [(1, .notInitialized)] := by decide
/-- V-ENC-13: the encoding check comes before `InitWhileInitialized` (R82). -/
theorem test_step_refuses_reserved_first :
    (stepped (withCommand 1 0x0000016800050419#64 (live 0#8 0#64))).refusedMarks = ⟨false, true, false⟩ := by decide

/-! ### Witnesses: for each statement with hypotheses, a state and operands that meet them all -/

/-- A turn of the decoder comes next. -/
def decoderTurn (s : State) : State := { s with sched := [.decoder] }

/-- Uninitialized, with the given free inputs. -/
def unbound (inputs : List (BitVec 64)) : State := { powerOn with inputs := inputs, actor := 1 }

theorem test_admitted_default : powerOn.params.admitted = true := by decide +kernel

theorem tokenInv_powerOn : TokenInv powerOn :=
  ⟨test_admitted_default, by decide, by decide, by decide, by decide, by decide, by decide, by decide⟩

theorem tokenInv_unbound : TokenInv (unbound [bindOk]) :=
  ⟨test_admitted_default, by decide, by decide, by decide, by decide, by decide, by decide, by decide⟩

theorem tokenInv_pending : TokenInv { pending 0x01#8 0x4014000000000000#64 3#2 with
    sched := [.decoder, .decoder, .decoder, .environment] } :=
  ⟨test_admitted_default, by decide, by decide, by decide, by decide, by decide, by decide, by decide⟩

theorem tokenInv_decoding : TokenInv (decoderTurn decodingState) :=
  ⟨test_admitted_default, by decide, by decide, by decide, by decide +kernel, by decide, by decide, by decide⟩

theorem tokenInv_live : TokenInv (withCommand 1 3#64 (live 0x00#8 0#64)) :=
  ⟨test_admitted_default, by decide, by decide, by decide, by decide, by decide, by decide, by decide⟩

theorem numberInv_decoding : NumberInv (decoderTurn decodingState) :=
  ⟨rfl, by decide, by decide, by decide, by decide⟩

theorem witness_DecodeOfEncodeIsTheCommand :
    encode (.init 255#8 0#8 0xFFFFFFFF#32) = some 0xFFFFFFFF0000FF09#64 ∧ encode .reset = some 4#64 := by decide

theorem witness_EncodeOfDecodeIsTheWord :
    decode 0xFFFFFFFF00FFFF09#64 = .ok (.init 255#8 255#8 0xFFFFFFFF#32) ∧ decode 1#64 = .ok .initNull := by decide

/-- A program line of agent 1 and its turn: a reserved code, a reserved bit of each form, and neither. -/
theorem witness_ReservedWordsAreRefused (c : Command) :
    (withCommand 1 c powerOn).sched = .agent 1 :: [] ∧ listFor (withCommand 1 c powerOn).programs 1 = c :: [] := by
  simp [withCommand, listFor]

theorem witness_ReservedWordsAreRefused_words :
    BitVec.extractLsb' 0 3 0x0000000000000007#64 = 0b111#3 ∧ BitVec.extractLsb' 0 3 0xFFFFFFFFFFFFFFF8#64 = 0b000#3 ∧
    (BitVec.extractLsb' 0 4 0x0000000080000009#64 = 0b1001#4 ∧ BitVec.extractLsb' 24 8 0x0000000080000009#64 ≠ 0#8) ∧
    (BitVec.extractLsb' 0 4 0x8000000000000001#64 = 0b0001#4 ∧ BitVec.extractLsb' 4 60 0x8000000000000001#64 ≠ 0#60) ∧
    (BitVec.extractLsb' 0 3 0x000000000000000A#64 = 0b010#3 ∧ BitVec.extractLsb' 3 61 0x000000000000000A#64 ≠ 0#61) ∧
    BitVec.extractLsb' 0 4 0x0000000000000009#64 = 0b1001#4 := by decide

theorem witness_StepRunsTheDecodedOperation :
    ((withCommand 2 3#64 powerOn).sched = .agent 2 :: [] ∧ listFor (withCommand 2 3#64 powerOn).programs 2 = [3#64] ∧
      decode 3#64 = .ok .get) ∧
    (decoderTurn powerOn).sched = .decoder :: [] ∧
    (({ powerOn with sched := [.environment], script := [2#2] } : State).sched = .environment :: [] ∧
      ({ powerOn with sched := [.environment], script := [2#2] } : State).script = 2#2 :: []) ∧
    (({ powerOn with sched := [.agent 3] } : State).sched = .agent 3 :: [] ∧ listFor powerOn.programs 3 = []) ∧
    powerOn.script = [] ∧ powerOn.sched = [] := by decide

/-- The least and the greatest pulse count, binding `Ok`. -/
theorem witness_InitCommits :
    (unbound [bindOk]).own = .none ∧ (unbound [bindOk]).life = .uninitialized ∧ (4#8 : PinId) ≠ 5#8 ∧
    4#8 ∈ (unbound [bindOk]).params.validPins ∧ 5#8 ∈ (unbound [bindOk]).params.validPins ∧
    (1#32 : Pulses) ≠ 0#32 ∧ (0xFFFFFFFF#32 : Pulses) ≠ 0#32 ∧ (unbound [bindOk]).drawn.getLsbD 32 = false := by decide

theorem witness_InitBindingFailureChangesNothing :
    (unbound [0x100000103#64]).own = .none ∧ (unbound [0x100000103#64]).life = .uninitialized ∧ (4#8 : PinId) ≠ 5#8 ∧
    4#8 ∈ (unbound [0x100000103#64]).params.validPins ∧ 5#8 ∈ (unbound [0x100000103#64]).params.validPins ∧
    (360#32 : Pulses) ≠ 0#32 ∧ (unbound [0x100000103#64]).drawn.getLsbD 32 = true := by decide

theorem witness_InitRejectsInvalidConfigurations :
    (unbound []).own = .none ∧ (unbound []).life = .uninitialized ∧ 6#8 ∉ (unbound []).params.validPins := by decide

theorem witness_InitWhileInitializedIsRefused : (live 0#8 0#64).own = .none ∧ (live 0#8 0#64).life = .initialized := by decide

theorem witness_StateAfterInitInFull :
    TokenInv (unbound [bindOk]) ∧
    exec (.init 4#8 5#8 360#32) (unbound [bindOk]) = .next (after (.init 4#8 5#8 360#32) (unbound [bindOk])) ∧
    (after (.init 4#8 5#8 360#32) (unbound [bindOk])).returned =
      (unbound [bindOk]).returned ++ [((unbound [bindOk]).actor, .ok)] :=
  ⟨tokenInv_unbound, rfl, by decide +kernel⟩

theorem witness_DeinitUnbinds :
    ((live 0#8 0#64).life = .initialized ∧ (live 0#8 0#64).own = .none) ∧ powerOn.life = .uninitialized ∧
    (decodingState.life = .initialized ∧ decodingState.own ≠ .none) := by decide

theorem witness_GetReturnsThePosition :
    powerOn.life = .uninitialized ∧ ((live 0#8 0#64).life = .initialized ∧ (live 0#8 0#64).own = .none) ∧
    (resetting.life = .initialized ∧ resetting.own ≠ .none ∧ resetting.params.readAtomic = false) ∧
    (withOptions true false decodingState).own ≠ .none ∧ (withOptions true false decodingState).params.readAtomic = true := by
  decide

theorem witness_ResetBeginTakesTheToken :
    (¬ (powerOn.own = .ctrl ∧ powerOn.caller = powerOn.actor) ∧ powerOn.life = .uninitialized) ∧
    (¬ (decodingState.own = .ctrl ∧ decodingState.caller = decodingState.actor) ∧ decodingState.life = .initialized ∧
      decodingState.own ≠ .none) ∧
    ((live 0#8 0#64).life = .initialized ∧ (live 0#8 0#64).own = .none) := by decide

theorem witness_ResetCommitStoresAndFrees : resetting.own = .ctrl ∧ resetting.caller = resetting.actor := by decide

theorem witness_ResetWritesOnlyThePosition : (live 0x03#8 one).life = .initialized ∧ (live 0x03#8 one).own = .none := by
  decide

theorem witness_PinSetLatchesEdges :
    ((0#2 : Phase) ≠ (live 0#8 0#64).phase ∧ (live 0#8 0#64).life = .initialized) ∧ 3#2 = (live 0#8 0#64).phase ∧
    powerOn.life = .uninitialized := by decide

/-- Rows 1 and 5 at phase 3 tag CW and CCW; row 0 at phase 1 and row 6 at phase 3 do not tag. -/
theorem witness_DecodeBeginDispatchesTheTag :
    (pending 0x01#8 0#64 3#2).params.sampleSkew = false ∧ (pending 0x01#8 0#64 3#2).irq = true ∧
    (pending 0x01#8 0#64 3#2).life = .initialized ∧ (pending 0x01#8 0#64 3#2).own = .none ∧
    (BitVec.extractLsb' 0 4 0x01#8).toNat = (1 : Fin 7).val ∧ (BitVec.extractLsb' 0 4 0x06#8).toNat = (6 : Fin 7).val ∧
    (Config.defaultTT.word 1 3#2).extractLsb' 4 4 = 1#4 ∧ (Config.defaultTT.word 5 3#2).extractLsb' 4 4 = 2#4 ∧
    (Config.defaultTT.word 0 1#2).extractLsb' 4 4 = 0#4 ∧ (Config.defaultTT.word 6 3#2).extractLsb' 4 4 = 0#4 ∧
    powerOn.params.tagCw = 1#4 ∧ powerOn.params.tagCcw = 2#4 ∧ powerOn.params.tt = Config.defaultTT := by decide

theorem witness_DecodeCommitStoresAndFrees :
    (decodingState.own = .dec ∧ decodingState.params.sampleSkew = false) ∧
    (withOptions false true decodingState).slatch = none := by decide

/-- Ready for the first sample; and after it, with either bit latched. -/
theorem witness_SkewedSamplesAreJoined :
    ((withOptions false true (pending 0#8 0#64 3#2)).params.sampleSkew = true ∧
      (withOptions false true (pending 0#8 0#64 3#2)).slatch = none) ∧
    (after .isr (withOptions false true { pending 0#8 0#64 3#2 with inputs := [0#64] })).slatch = some (.a, true) ∧
    (after .isr (withOptions false true { pending 0#8 0#64 3#2 with inputs := [1#64] })).slatch = some (.b, true) ∧
    (after .isr (withOptions false true { pending 0#8 0#64 3#2 with inputs := [1#64] })).own = .dec ∧
    ((3#2 : Phase).getLsbD 0 = true ∧ (3#2 : Phase).getLsbD 1 = (3#2 : Phase).getLsbD 1) ∧
    (BitVec.extractLsb' 0 4 0x00#8).toNat = (0 : Fin 7).val := by decide

theorem witness_DecoderHoldsUntilReady :
    ((live 0#8 0#64).own ≠ .dec ∧ (live 0#8 0#64).irq = false) ∧ (powerOn.own ≠ .dec ∧ powerOn.life = .uninitialized) ∧
    (resetting.own ≠ .dec ∧ resetting.own = .ctrl) ∧
    ({ withOptions false true (pending 0#8 0#64 3#2) with slatch := some (.a, true) } : State).slatch ≠ none := by decide

/-- Rows 7 and 15, with one sample and with two. -/
theorem witness_BadRowIsMarked :
    ((withOptions false true { decodingState with sub := 0x0F#8, slatch := some (.b, false) }).params.sampleSkew = true ∧
      (withOptions false true { decodingState with sub := 0x0F#8, slatch := some (.b, false) }).own = .dec ∧
      (withOptions false true { decodingState with sub := 0x0F#8, slatch := some (.b, false) }).slatch ≠ none ∧
      6 < (BitVec.extractLsb' 0 4 0x0F#8).toNat) ∧
    6 < (BitVec.extractLsb' 0 4 (pending 0x07#8 0#64 3#2).sub).toNat ∧
    6 < (BitVec.extractLsb' 0 4 (pending 0xFF#8 0#64 3#2).sub).toNat ∧
    (pending 0x07#8 0#64 3#2).params.sampleSkew = false ∧ (pending 0x07#8 0#64 3#2).irq = true ∧
    (pending 0x07#8 0#64 3#2).life = .initialized ∧ (pending 0x07#8 0#64 3#2).own = .none := by decide

theorem witness_LookupUsesTheRowOnly :
    6 < (0xF7#8 &&& 0x0F#8).toNat ∧ (0xF6#8 &&& 0x0F#8).toNat = (6 : Fin 7).val := by decide

theorem witness_DispatchChoosesTheAction : (0x3#4 : Nibble) ≠ 0x1#4 ∧ (0x3#4 : Nibble) ≠ 0x2#4 := by decide

theorem witness_DecodeEndsWithinThreeTurns :
    TokenInv { pending 0x01#8 0x4014000000000000#64 3#2 with sched := [.decoder, .decoder, .decoder, .environment] } ∧
    (pending 0x01#8 0x4014000000000000#64 3#2).life = .initialized ∧
    (pending 0x01#8 0x4014000000000000#64 3#2).irq = true ∧ (pending 0x01#8 0x4014000000000000#64 3#2).own = .none :=
  ⟨tokenInv_pending, by decide, by decide, by decide⟩

/-- A configuration of `Reach` beyond the home row: row 2 entered by phase 1. -/
theorem reach_two_one : powerOn.params.Reach (2, 1#2) :=
  .next (r := 0) (p := 3#2) 1#2 (.home 3#2) (by decide)

theorem witness_AdmittedTablesTagAndRecover :
    powerOn.params.admitted = true ∧ powerOn.params.Reach (2, 1#2) ∧ doubleBit 1#2 2#2 = true ∧ (2 : Fin 7) ≠ powerOn.params.home ∧
    ∀ q, powerOn.params.Reach (2, q) → q = 1#2 :=
  ⟨test_admitted_default, reach_two_one, by decide, by decide, fun q h => by
    exact (show ∀ q, ((2 : Fin 7), q) ∈ powerOn.params.reachable → q = 1#2 by decide +kernel) q
      (Params.mem_reachable test_admitted_default h)⟩

theorem witness_DoubleBitTransitionNeverCounts :
    (pending 0x02#8 one 2#2).params.admitted = true ∧ (pending 0x02#8 one 2#2).params.sampleSkew = false ∧
    (pending 0x02#8 one 2#2).irq = true ∧ (pending 0x02#8 one 2#2).life = .initialized ∧
    (pending 0x02#8 one 2#2).own = .none ∧
    (BitVec.extractLsb' 0 4 (pending 0x02#8 one 2#2).sub).toNat = (2 : Fin 7).val ∧
    (pending 0x02#8 one 2#2).params.Reach (2, 1#2) ∧ doubleBit 1#2 (pending 0x02#8 one 2#2).phase = true :=
  ⟨test_admitted_default, by decide, by decide, by decide, by decide, by decide, reach_two_one, by decide⟩

/-- One cycle in either direction, and none. -/
theorem witness_FullCyclesApplyOneTagEach :
    (live 0x10#8 one).params.admitted = true ∧ (live 0x10#8 one).params.sampleSkew = false ∧
    (live 0x10#8 one).life = .initialized ∧ (live 0x10#8 one).own = .none ∧ (live 0x10#8 one).irq = false ∧
    (rowOf (live 0x10#8 one).sub).toNat = (live 0x10#8 one).params.home.val ∧ (live 0x10#8 one).phase = 3#2 ∧
    ({ live 0x10#8 one with sched := edgesTurns 4 } : State).sched = edgesTurns (4 * 1) ++ [] ∧
    [1#2, 0#2, 2#2, 3#2] = repeatPhases [1#2, 0#2, 2#2, 3#2] 1 ++ [] ∧
    [2#2, 0#2, 1#2, 3#2] = repeatPhases [2#2, 0#2, 1#2, 3#2] 1 ++ [] :=
  ⟨test_admitted_default, by decide, by decide, by decide, by decide, by decide, by decide, by decide, by decide,
    by decide⟩

theorem step_stepped (s : State) : step s = .next (stepped s) := by
  obtain ⟨t, h⟩ := step_eq_next s
  simp [stepped, h]

/-- Also of `TokenInvariantIsKept`, `NumberInvariantIsKept` and `BadRowIsUnreachable`, with the invariants above. -/
theorem witness_RomIsImmutable : step (decoderTurn decodingState) = .next (stepped (decoderTurn decodingState)) :=
  step_stepped _

/-- Two marks held before a step. -/
theorem witness_MarksAreSticky :
    step { decoderTurn decodingState with faultMarks := ⟨true⟩, refusedMarks := ⟨true, true, true⟩ } =
      .next (stepped { decoderTurn decodingState with faultMarks := ⟨true⟩, refusedMarks := ⟨true, true, true⟩ }) :=
  step_stepped _

/-- The commit of a decode changes `ACC`. -/
theorem witness_EveryPositionWriteIsAStepOrZero :
    TokenInv (decoderTurn decodingState) ∧ step (decoderTurn decodingState) = .next (stepped (decoderTurn decodingState)) ∧
    (stepped (decoderTurn decodingState)).acc ≠ (decoderTurn decodingState).acc :=
  ⟨tokenInv_decoding, step_stepped _, by decide⟩

/-- INIT, DEINIT, and INIT's new `STEP`. -/
theorem witness_OnlyInitAndDeinitChangeTheLifecycle :
    (powerOn.life = .uninitialized ∧
      (stepped (withCommand 1 0x0000016800050409#64 (unbound [bindOk]))).life = .initialized ∧
      (stepped (withCommand 1 0x0000016800050409#64 (unbound [bindOk]))).stepReg ≠ (unbound [bindOk]).stepReg) ∧
    ((live 0#8 0#64).life = .initialized ∧ (stepped (withCommand 1 2#64 (live 0#8 0#64))).life = .uninitialized) := by
  decide +kernel

theorem witness_TokenExcludesOtherWriters :
    (decodingState.own = .dec ∧ (withCommand 2 4#64 decodingState).sched.head? ≠ some .decoder) ∧
    (resetting.own = .ctrl ∧ (withCommand 2 4#64 resetting).sched.head? ≠ some (.agent resetting.caller)) := by decide

theorem witness_ZeroStaysUntilADecodeCommits :
    TokenInv (withCommand 1 3#64 (live 0x00#8 0#64)) ∧ (withCommand 1 3#64 (live 0x00#8 0#64)).acc = 0#64 ∧
    step (withCommand 1 3#64 (live 0x00#8 0#64)) = .next (stepped (withCommand 1 3#64 (live 0x00#8 0#64))) ∧
    ¬ ((withCommand 1 3#64 (live 0x00#8 0#64)).decoding = true ∧
      (withCommand 1 3#64 (live 0x00#8 0#64)).sched.head? = some .decoder) :=
  ⟨tokenInv_live, by decide, step_stepped _, by decide⟩

theorem witness_PendingEdgeIsNotLost :
    (decoderTurn (pending 0#8 0#64 1#2)).irq = true ∧ (stepped (decoderTurn (pending 0#8 0#64 1#2))).irq = false := by decide

theorem witness_StatusGoesToTheIssuer :
    (stepped (withCommand 7 3#64 powerOn)).returned ≠ (withCommand 7 3#64 powerOn).returned := by decide

theorem witness_ErrorsArePrecise :
    exec .deinit powerOn = .next (after .deinit powerOn) ∧
    (after .deinit powerOn).returned = powerOn.returned ++ [(powerOn.actor, .failed)] ∧ Status.failed.code ≠ 0#3 :=
  ⟨rfl, by decide, by decide⟩

/-- Every operation has a next state, in every state. -/
theorem witness_OperationFrames (i : Instr) (s : State) : exec i s = .next (after i s) := by
  simp [after, exec_eq_next]

theorem witness_DisabledOperationHolds :
    enabled (.init 4#8 5#8 1#32) decodingState = false ∧ enabled .initNull decodingState = false ∧
    enabled .deinit decodingState = false ∧ enabled .reset decodingState = false ∧ enabled .isr powerOn = false := by decide

theorem witness_FinalStateIsQuiescent : (decoderTurn powerOn).final = true := by decide

theorem witness_TokenInvariantIsKept :
    TokenInv (decoderTurn decodingState) ∧ step (decoderTurn decodingState) = .next (stepped (decoderTurn decodingState)) :=
  ⟨tokenInv_decoding, step_stepped _⟩

theorem witness_BadRowIsUnreachable :
    TokenInv { pending 0x01#8 0x4014000000000000#64 3#2 with sched := [.decoder, .decoder, .decoder, .environment] } ∧
    step { pending 0x01#8 0x4014000000000000#64 3#2 with sched := [.decoder, .decoder, .decoder, .environment] } =
      .next (stepped
        { pending 0x01#8 0x4014000000000000#64 3#2 with sched := [.decoder, .decoder, .decoder, .environment] }) :=
  ⟨tokenInv_pending, step_stepped _⟩

theorem witness_NumberInvariantIsKept :
    NumberInv (decoderTurn decodingState) ∧ step (decoderTurn decodingState) = .next (stepped (decoderTurn decodingState)) :=
  ⟨numberInv_decoding, step_stepped _⟩

/-- Two power-on states that differ in every unset register. -/
theorem witness_UnsetRegistersAreNeverSeen :
    SameButUnset (withCommand 1 3#64 powerOn)
      { withCommand 1 3#64 powerOn with sub := 0xFF#8, acc := one, stepReg := one, wpend := one, caller := 9 } ∧
    ((withCommand 1 3#64 powerOn).params.readAtomic = false ∨ (withCommand 1 3#64 powerOn).params.sampleSkew = false) :=
  ⟨by constructor <;> decide, by decide⟩

/-- Two states that differ in the tag. -/
theorem witness_StaleTagIsNeverRead :
    SameButTag (decoderTurn (pending 0x10#8 one 2#2)) (decoderTurn (pending 0x20#8 one 2#2)) := ⟨rfl, by decide⟩

/-- 1.0 and 360.0: the exact sum, 361 * 2^1074 units, is far below the threshold. -/
theorem witness_SumsAreCorrectlyRounded :
    isFinite one = true ∧ isFinite f360 = true ∧ (units one + units f360).natAbs < (2 ^ 54 - 1) * 2 ^ 2044 ∧
    (units one - units f360).natAbs < (2 ^ 54 - 1) * 2 ^ 2044 :=
  ⟨by decide, by decide,
    lt_of_eq_of_lt (b := 361 <<< 1074) (by decide +kernel) (by decide +kernel),
    lt_of_eq_of_lt (b := 359 <<< 1074) (by decide +kernel) (by decide +kernel)⟩

theorem witness_StepIsTheCorrectlyRoundedQuotient : (1#32 : Pulses) ≠ 0#32 ∧ (0xFFFFFFFF#32 : Pulses) ≠ 0#32 := by decide

theorem witness_StepIsPositiveNormalAtMost360 : (1#32 : Pulses) ≠ 0#32 ∧ (0xFFFFFFFF#32 : Pulses) ≠ 0#32 := by decide

end Sys2Proof.Tests
end

section
/-! PROOFS. Who writes what, for two registers of spec/10_state.md: the sticky mark sets `FAULT` and `REFUSED` (R23), and the
position `ACC` (R14). Each is one lemma over the effects of an operation, from which the rule about `step` follows. -/

namespace Sys2Proof.Machine

/-! ### The mark sets (R23) -/

theorem RefusedMarks.has_add (m : RefusedMarks) (r r' : RefuseReason) :
    (m.add r').has r = (decide (r = r') || m.has r) := by
  cases r <;> cases r' <;> rfl

theorem FaultMarks.badRow_add (m : FaultMarks) (r : Fault) : (m.add r).badRow = true := by cases r; rfl

/-- An operation writes `FAULT` only by marking a bad row (R80). -/
theorem Effect.faultMarks_cases {u t : State} {i : Instr} (h : Effect u i t) :
    t.faultMarks = u.faultMarks ∨ t = u.raiseFault .badRow := by
  cases h with
  | badRow | badRowSkewed => exact .inr rfl
  | _ => left; simp

/-- An operation writes `REFUSED` only by refusing an INIT (R74, R81). -/
theorem Effect.refusedMarks_cases {u t : State} {i : Instr} (h : Effect u i t) :
    t.refusedMarks = u.refusedMarks ∨ t = u.refuse .initWhileInitialized := by
  cases h with
  | refuseInit | refuseInitNull => exact .inr rfl
  | _ => left; simp

/-- A step leaves `FAULT` as it is or adds a reason to it. -/
theorem StepEffect.faultMarks_cases {s t : State} (h : StepEffect s t) :
    t.faultMarks = s.faultMarks ∨ ∃ r, t.faultMarks = s.faultMarks.add r := by
  cases h with
  | idle | refused | environment => left; simp
  | command _ _ _ _ _ _ _ _ _ _ he | decoder _ _ _ he =>
    exact he.faultMarks_cases.imp id fun e => ⟨.badRow, by rw [e]; rfl⟩

/-- A step leaves `REFUSED` as it is or adds a reason to it. -/
theorem StepEffect.refusedMarks_cases {s t : State} (h : StepEffect s t) :
    t.refusedMarks = s.refusedMarks ∨ ∃ r, t.refusedMarks = s.refusedMarks.add r := by
  cases h with
  | idle | environment => left; simp
  | refused _ _ _ _ r => exact .inr ⟨r, rfl⟩
  | command _ _ _ _ _ _ _ _ _ _ he | decoder _ _ _ he =>
    exact he.refusedMarks_cases.imp id fun e => ⟨.initWhileInitialized, by rw [e]; rfl⟩

/-- Settles O32: a step changes a mark set only by adding a reason to it. -/
theorem marksAreSticky : Obligations.MarksAreSticky := by
  intro s t hstep
  have he := step_effect hstep
  refine ⟨fun hb => ?_, fun r hr => ?_⟩
  · obtain e | ⟨f, e⟩ := he.faultMarks_cases
    · rwa [e]
    · rw [e]; exact FaultMarks.badRow_add ..
  · obtain e | ⟨r', e⟩ := he.refusedMarks_cases
    · rwa [e]
    · simp [e, RefusedMarks.has_add, hr]

/-! ### The position register (R14) -/

/-- The three operations that write `ACC`: the decoder's commit, the calling controller's reset commit and INIT. -/
theorem Effect.acc_cases {u t : State} {i : Instr} (h : Effect u i t) :
    t.acc = u.acc ∨
    (i = .isr ∧ u.own = .dec ∧ u.decoding = true ∧ t = u.commitWrite) ∨
    (i = .reset ∧ u.own = .ctrl ∧ u.caller = u.actor ∧ t = u.commitWrite.answer .ok) ∨
    ((∃ pinA pinB pulses, i = .init pinA pinB pulses) ∧ u.life = .uninitialized ∧ t.life = .initialized ∧ t.acc = f0) := by
  cases h with
  | decCommit ho hd => exact .inr (.inl ⟨rfl, ho, hd, rfl⟩)
  | resetCommit ho hc => exact .inr (.inr (.inl ⟨rfl, ho, hc, rfl⟩))
  | commitInit _ hl => exact .inr (.inr (.inr ⟨⟨_, _, _, rfl⟩, hl, rfl, rfl⟩))
  | _ => left; simp

/-- A step that changes `ACC` is a commit by the holder of the token, in its own turn, or an INIT. -/
theorem StepEffect.acc_cases {s t : State} (h : StepEffect s t) :
    t.acc = s.acc ∨
    (s.sched.head? = some .decoder ∧ s.own = .dec ∧ s.decoding = true ∧ t.own = .none ∧ t.acc = s.wpend) ∨
    (s.sched.head? = some (.agent s.caller) ∧ s.own = .ctrl ∧ t.own = .none ∧ t.acc = s.wpend) ∨
    (s.life = .uninitialized ∧ t.life = .initialized ∧ t.acc = f0) := by
  cases h with
  | idle | refused | environment => left; simp
  | decoder ts _ hs he =>
    obtain e | ⟨-, ho, hd, rfl⟩ | ⟨hi, -⟩ | ⟨⟨_, _, _, hi⟩, -⟩ := he.acc_cases
    · exact .inl e
    · exact .inr (.inl ⟨by rw [hs]; rfl, ho, hd, rfl, rfl⟩)
    · cases hi
    · cases hi
  | command a ts c rest i _ hs _ _ hi he =>
    obtain e | ⟨rfl, -⟩ | ⟨-, ho, hc, rfl⟩ | ⟨-, hl⟩ := he.acc_cases
    · exact .inl e
    · cases hi
    · have hc : s.caller = a := hc
      exact .inr (.inr (.inl ⟨by rw [hs, hc]; rfl, ho, rfl, rfl⟩))
    · exact .inr (.inr (.inr hl))

/-- What a begun decode has pending (R55, R56): one rounded step of the tag in `SUB`. -/
theorem TokenInv.wpend_of_decoding {s : State} (h : TokenInv s) (hd : s.decoding = true) :
    (tagOf s.sub = s.params.tagCw ∧ s.wpend = fpAdd s.params.fp s.acc s.stepReg) ∨
    (tagOf s.sub = s.params.tagCcw ∧ s.wpend = fpSub s.params.fp s.acc s.stepReg) := by
  obtain ⟨ht, hv⟩ | ⟨-, ht, hv⟩ := (actionValue_dispatch_eq_some ..).1 (h.decodeValue hd)
  · exact .inl ⟨ht, hv.symm⟩
  · exact .inr ⟨ht, hv.symm⟩

/-- Settles O33: `ACC` is written by the two commits, whose pending values the token invariant gives, and by INIT. -/
theorem everyPositionWriteIsAStepOrZero : Obligations.EveryPositionWriteIsAStepOrZero := by
  intro s t hinv hstep hne
  obtain e | ⟨hs, ho, hd, hfree, e⟩ | ⟨hs, ho, hfree, e⟩ | hinit := (step_effect hstep).acc_cases
  · exact absurd e hne
  · rw [e]
    exact .inl ⟨hs, ho, hfree, hinv.wpend_of_decoding hd⟩
  · exact .inr (.inl ⟨hs, ho, hfree, e.trans (hinv.resetValue ho)⟩)
  · exact .inr (.inr hinit)

end Sys2Proof.Machine
end

section
/-! PROOFS. The transition ROM and the other options of the block have no writer (spec/20_memory.md, R35; R5). -/

namespace Sys2Proof.Machine

/-- Every effect of an operation is a write to registers, marks or the model's own fields, none to an option. -/
theorem Effect.params_eq {u t : State} {i : Instr} (h : Effect u i t) : t.params = u.params := by
  cases h <;> simp

/-- Settles O31: a turn changes no option before its operation runs, and the operation changes none. -/
theorem romIsImmutable : Obligations.RomIsImmutable := by
  intro s t hstep
  cases step_effect hstep with
  | idle | refused | environment => simp
  | command _ _ _ _ _ _ _ _ _ _ he | decoder _ _ _ he => exact he.params_eq

end Sys2Proof.Machine
end

section
/-! PROOFS. The edge source, the commit of a decode and the dispatch of its tag (spec/41_edge_decoder.md, R54, R56, R58). -/

namespace Sys2Proof.Machine

/-! ### The dispatch of a tag (R58) -/

/-- Settles O24: the equations of `dispatch` for any two tags, and the same at this block's 0x1 and 0x2. -/
theorem dispatchChoosesTheAction : Obligations.DispatchChoosesTheAction := by
  have hall (P : Params) (t : Nibble) : (t = P.tagCw → dispatch P t = .plus) ∧
      (t ≠ P.tagCw → t = P.tagCcw → dispatch P t = .minus) ∧
      (t ≠ P.tagCw → t ≠ P.tagCcw → dispatch P t = .none) :=
    ⟨(dispatch_eq_plus_iff P t).2, fun hcw hccw => (dispatch_eq_minus_iff P t).2 ⟨hcw, hccw⟩,
      fun hcw hccw => (dispatch_eq_none_iff P t).2 ⟨hcw, hccw⟩⟩
  exact ⟨hall, (hall Config.blockParams _).1 rfl, (hall Config.blockParams _).2.1 (by decide) rfl,
    fun t => (hall Config.blockParams t).2.2⟩

/-! ### The commit of a decode (R56) -/

/-- The decoder is past DEC_BEGIN: it holds the token and no first sample waits in `SLATCH`. -/
theorem State.decoding_iff (s : State) :
    s.decoding = true ↔ s.own = .dec ∧ (s.params.sampleSkew = false ∨ s.slatch = none) := by
  simp only [State.decoding, Bool.and_eq_true, beq_iff_eq, Bool.not_eq_true', Bool.and_eq_false_iff,
    Option.isSome_eq_false_iff, Option.isNone_iff_eq_none]

/-- Of the steps of DECODE only DEC_COMMIT is left to a decoder past DEC_BEGIN. -/
theorem isrStep_of_decoding {s : State} (h : s.decoding = true) : isrStep s = s.commitWrite := by
  obtain ⟨ho, hsample⟩ := s.decoding_iff.1 h
  obtain ⟨-, -, e⟩ | ⟨_, _, -, hk, hl, -⟩ | ⟨-, -, hn, -⟩ | ⟨-, -, hn, -⟩ | ⟨hn, -⟩ := isrStep_cases s
  · exact e
  · simp [hk, hl] at hsample
  · simp [ho] at hn
  · simp [ho] at hn
  · exact absurd ho hn

/-- Settles O19: the decoder is past DEC_BEGIN, so its step is the commit of the pending write. -/
theorem decodeCommitStoresAndFrees : Obligations.DecodeCommitStoresAndFrees := fun s ho hsample =>
  exec_next_iff.2 (isrStep_of_decoding (s.decoding_iff.2 ⟨ho, hsample⟩))

/-! ### The edge source (R54) -/

theorem edgeLatched_iff (l : Life) (old new : Phase) :
    edgeLatched l old new = true ↔ new ≠ old ∧ l = .initialized := by
  simp [edgeLatched]

theorem pinsStep_of_edge {q : Phase} {s : State} (h : edgeLatched s.life s.phase q = true) :
    pinsStep q s = { s with irq := true, phase := q } := by
  simp [pinsStep, h]

theorem pinsStep_of_no_edge {q : Phase} {s : State} (h : edgeLatched s.life s.phase q = false) :
    pinsStep q s = { s with phase := q } := by
  simp [pinsStep, h]

/-- Settles O17: a change of the phase while initialized is an edge, an equal phase or an uninitialized block gives none. -/
theorem pinSetLatchesEdges : Obligations.PinSetLatchesEdges := by
  refine fun q s => ⟨fun hne hl => ?_, fun hno => ?_⟩
  · exact exec_next_iff.2 (pinsStep_of_edge ((edgeLatched_iff ..).2 ⟨hne, hl⟩))
  · refine exec_next_iff.2 (pinsStep_of_no_edge (Bool.eq_false_iff.2 fun h => ?_))
    obtain ⟨hne, hl⟩ := (edgeLatched_iff ..).1 h
    obtain hq | hu := hno
    · exact hne hq
    · simp [hl] at hu

end Sys2Proof.Machine
end

section
/-! PROOFS. The reset gate of the position register (spec/42_position_access.md, R67, R68). -/

namespace Sys2Proof.Machine

/-- The controller that began the reset takes RESET_COMMIT as its next step of RESET (R67). -/
theorem resetStep_of_caller {s : State} (ho : s.own = .ctrl) (hc : s.caller = s.actor) :
    resetStep s = s.commitWrite.answer .ok := by
  obtain ⟨-, -, e⟩ | ⟨hn, -⟩ | ⟨hn, -⟩ | ⟨-, hfree, -⟩ := resetStep_cases s
  · exact e
  · exact absurd ⟨ho, hc⟩ hn
  · exact absurd ⟨ho, hc⟩ hn
  · simp [ho] at hfree

/-- While initialized and with the token free, RESET_BEGIN takes the token with +0.0 pending (R66). -/
theorem resetStep_of_free {s : State} (hl : s.life = .initialized) (ho : s.own = .none) :
    resetStep s = { s with own := .ctrl, caller := s.actor, wpend := f0 } := by
  obtain ⟨hctrl, -⟩ | ⟨-, hu, -⟩ | ⟨-, -, htaken, -⟩ | ⟨-, -, e⟩ := resetStep_cases s
  · simp [ho] at hctrl
  · simp [hl] at hu
  · exact absurd ho htaken
  · exact e

/-- Settles O14: the step is RESET_COMMIT, the commit of the pending write answered by `Ok`. -/
theorem resetCommitStoresAndFrees : Obligations.ResetCommitStoresAndFrees := fun _ ho hc =>
  exec_next_iff.2 (resetStep_of_caller ho hc)

/-- Settles O15: RESET_BEGIN leaves the acting controller holding the token, so its second step is RESET_COMMIT; the token
it frees was free before. -/
theorem resetWritesOnlyThePosition : Obligations.ResetWritesOnlyThePosition := by
  intro s hl ho
  refine ⟨_, exec_next_iff.2 (resetStep_of_free hl ho), ?_⟩
  rw [resetCommitStoresAndFrees _ rfl rfl, ← ho]
  rfl

end Sys2Proof.Machine
end

section
/-! PROOFS. The validation of INIT in the lifecycle gate (spec/43_controller.md, R70). -/

namespace Sys2Proof.Machine

/-- The four causes for which validation rejects a configuration that is present (R70). -/
theorem configValid_eq_false_iff (P : Params) (pinA pinB : PinId) (pulses : Pulses) :
    configValid P pinA pinB pulses = false ↔
      pinA = pinB ∨ pinA ∉ P.validPins ∨ pinB ∉ P.validPins ∨ pulses = 0#32 := by
  simp [configValid, ← Bool.not_eq_true, imp_iff_not_or, or_assoc]

/-- The null configuration is rejected once the token is free and the block uninitialized (R70). -/
theorem initNullStep_of_uninitialized {s : State} (ho : s.own = .none) (hl : s.life = .uninitialized) :
    initNullStep s = s.answer .invalidArgument := by
  obtain ⟨hn, -⟩ | ⟨-, hi, -⟩ | ⟨-, -, e⟩ := initNullStep_cases s
  · exact absurd ho hn
  · simp [hl] at hi
  · exact e

/-- A configuration that fails validation is rejected before `BIND` is drawn (R70, R71). -/
theorem initStep_of_invalid {pinA pinB : PinId} {pulses : Pulses} {s : State} (ho : s.own = .none)
    (hl : s.life = .uninitialized) (hv : configValid s.params pinA pinB pulses = false) :
    initStep pinA pinB pulses s = s.answer .invalidArgument := by
  obtain ⟨hn, -⟩ | ⟨-, hi, -⟩ | ⟨-, -, -, e⟩ | ⟨_, -, -, hc, -⟩ | ⟨-, -, hc, -⟩ := initStep_cases pinA pinB pulses s
  · exact absurd ho hn
  · simp [hl] at hi
  · exact e
  · simp [hv] at hc
  · simp [hv] at hc

/-- Settles O8: the null configuration, and one that fails validation for any of the four causes, is answered
`InvalidArgument`, and an answer writes no register and draws nothing. -/
theorem initRejectsInvalidConfigurations : Obligations.InitRejectsInvalidConfigurations := fun _ ho hl =>
  ⟨exec_next_iff.2 (initNullStep_of_uninitialized ho hl), fun pinA pinB pulses hbad =>
    exec_next_iff.2 (initStep_of_invalid ho hl ((configValid_eq_false_iff _ pinA pinB pulses).2 hbad))⟩

end Sys2Proof.Machine
end

section
/-! PROOFS. The precision of errors (spec/60_exceptions.md, R79). -/

namespace Sys2Proof.Machine

/-- The operations that return an error do nothing but answer it; a failed binding has made its draw before (R71, R72). -/
theorem Effect.eq_answer_of_error {u t : State} {i : Instr} {st : Status} (h : Effect u i t)
    (hret : t.returned = u.returned ++ [(u.actor, st)]) (herr : st.code ≠ 0#3) :
    t = u.answer st ∨ t = u.afterDraw.answer st := by
  cases h with
  | invalid | invalidNull | deinitFailed | getNotInitialized | resetNotInitialized =>
    obtain rfl : _ = st := by simpa using hret
    exact .inl rfl
  | bindingFailed code =>
    obtain rfl : _ = st := by simpa using hret
    exact .inr rfl
  | commitInit | deinit | get | getRacing | resetCommit =>
    obtain rfl : _ = st := by simpa using hret
    exact absurd rfl herr
  | _ => simp at hret

/-- Settles O39: neither an answer nor the draw of a binding writes a register, `PHASE`, a mark or an option. -/
theorem errorsArePrecise : Obligations.ErrorsArePrecise := by
  intro s t i st hexec hret herr
  obtain rfl | rfl := (effect_of_exec hexec).eq_answer_of_error hret herr <;> simp

end Sys2Proof.Machine
end

section
/-! PROOFS. The command word (spec/30_encoding.md, R40, R41, R43): the reserved masks as bit ranges, the cases of the
decoder by the word's lowest bits, and that decoder and encoder are inverse. -/

namespace Sys2Proof

/-! ### Bit ranges of a command word -/

theorem extractLsb'_eq_zero_iff_getLsbD (c : Command) (a n : Nat) :
    c.extractLsb' a n = 0#n ↔ ∀ i, a ≤ i → i < a + n → c.getLsbD i = false := by
  constructor
  · intro h i ha hn
    have := congrArg (fun x => x.getLsbD (i - a)) h
    simpa [show i - a < n by omega, show a + (i - a) = i by omega] using this
  · intro h
    refine BitVec.eq_of_getLsbD_eq fun i hi => ?_
    simp [hi, h (a + i) (by omega) (by omega)]

theorem and_eq_zero_iff_getLsbD (c m : Command) :
    c &&& m = 0#64 ↔ ∀ i < 64, m.getLsbD i = true → c.getLsbD i = false := by
  rw [show c &&& m = (c &&& m).extractLsb' 0 64 from BitVec.extractLsb'_eq_self.symm,
    extractLsb'_eq_zero_iff_getLsbD]
  simp only [Nat.zero_le, true_implies, Nat.zero_add, BitVec.getLsbD_and, Bool.and_eq_false_iff]
  exact forall₂_congr fun i _ => by cases m.getLsbD i <;> simp

theorem and_reservedPlain_iff (c : Command) : c &&& reservedPlain = 0#64 ↔ c.extractLsb' 3 61 = 0#61 := by
  have hmask : ∀ i < 64, reservedPlain.getLsbD i = decide (3 ≤ i) := by decide
  rw [and_eq_zero_iff_getLsbD, extractLsb'_eq_zero_iff_getLsbD]
  exact ⟨fun h i ha hn => h i hn (by simp [hmask i hn, ha]), fun h i hi hm => h i (by simpa [hmask i hi] using hm) hi⟩

theorem and_reservedInitNull_iff (c : Command) : c &&& reservedInitNull = 0#64 ↔ c.extractLsb' 4 60 = 0#60 := by
  have hmask : ∀ i < 64, reservedInitNull.getLsbD i = decide (4 ≤ i) := by decide
  rw [and_eq_zero_iff_getLsbD, extractLsb'_eq_zero_iff_getLsbD]
  exact ⟨fun h i ha hn => h i hn (by simp [hmask i hn, ha]), fun h i hi hm => h i (by simpa [hmask i hi] using hm) hi⟩

theorem and_reservedInit_iff (c : Command) :
    c &&& reservedInit = 0#64 ↔ c.extractLsb' 24 8 = 0#8 ∧ c.extractLsb' 4 4 = 0#4 := by
  have hmask : ∀ i < 64, reservedInit.getLsbD i = decide ((24 ≤ i ∧ i < 32) ∨ (4 ≤ i ∧ i < 8)) := by decide
  rw [and_eq_zero_iff_getLsbD, extractLsb'_eq_zero_iff_getLsbD, extractLsb'_eq_zero_iff_getLsbD]
  constructor
  · exact fun h => ⟨fun i ha hn => h i (by omega) (by rw [hmask i (by omega)]; simp; omega),
      fun i ha hn => h i (by omega) (by rw [hmask i (by omega)]; simp; omega)⟩
  · rintro ⟨hhi, hlo⟩ i hi hm
    rw [hmask i hi, decide_eq_true_eq] at hm
    exact hm.elim (fun h => hhi i h.1 h.2) (fun h => hlo i h.1 h.2)

/-- The four lowest bits are `present` above the operation code (R40). -/
theorem lowBits_eq (c : Command) : c.extractLsb' 0 4 = BitVec.ofBool (presentBit c) ++ opCode c := by
  have h3 : BitVec.ofBool (presentBit c) = c.extractLsb' 3 1 := by
    refine BitVec.eq_of_getLsbD_eq fun i hi => ?_
    obtain rfl : i = 0 := by omega
    simp [presentBit]
  rw [h3]
  exact (BitVec.extractLsb'_append_extractLsb'_eq_extractLsb' (start₁ := 0) (len₁ := 3) rfl).symm

theorem lowBits_eq_init_iff (c : Command) :
    c.extractLsb' 0 4 = 0b1001#4 ↔ opCode c = 0b001#3 ∧ presentBit c = true := by
  rw [lowBits_eq]
  generalize opCode c = o
  cases presentBit c <;> revert o <;> decide

theorem lowBits_eq_initNull_iff (c : Command) :
    c.extractLsb' 0 4 = 0b0001#4 ↔ opCode c = 0b001#3 ∧ presentBit c = false := by
  rw [lowBits_eq]
  generalize opCode c = o
  cases presentBit c <;> revert o <;> decide

/-! ### The decoder -/

theorem withoutReserved_eq_ok_iff {c mask : Command} {i j : Instr} :
    withoutReserved c mask i = .ok j ↔ c &&& mask = 0#64 ∧ i = j := by
  unfold withoutReserved
  split <;> simp [*]

theorem withoutReserved_of_reserved {c mask : Command} {i : Instr} (h : c &&& mask ≠ 0#64) :
    withoutReserved c mask i = .error .reservedBits := if_neg h

/-- The operation code is none of the four (R43). -/
def reservedCode (c : Command) : Prop :=
  opCode c = 0b000#3 ∨ opCode c = 0b101#3 ∨ opCode c = 0b110#3 ∨ opCode c = 0b111#3

/-- The decoder by the form of the word (R40): what it answers for each, reserved bits apart. -/
theorem decode_cases (c : Command) :
    (c.extractLsb' 0 4 = 0b1001#4 ∧
      decode c = withoutReserved c reservedInit (.init (pinAField c) (pinBField c) (pulsesField c))) ∨
    (c.extractLsb' 0 4 = 0b0001#4 ∧ decode c = withoutReserved c reservedInitNull .initNull) ∨
    (opCode c = 0b010#3 ∧ decode c = withoutReserved c reservedPlain .deinit) ∨
    (opCode c = 0b011#3 ∧ decode c = withoutReserved c reservedPlain .get) ∨
    (opCode c = 0b100#3 ∧ decode c = withoutReserved c reservedPlain .reset) ∨
    (reservedCode c ∧ decode c = .error .reservedCommand) := by
  have hcode : ∀ o : BitVec 3, o = 1#3 ∨ o = 2#3 ∨ o = 3#3 ∨ o = 4#3 ∨
      (o = 0b000#3 ∨ o = 0b101#3 ∨ o = 0b110#3 ∨ o = 0b111#3) := by decide
  rw [lowBits_eq_init_iff, lowBits_eq_initNull_iff, reservedCode]
  obtain h | h | h | h | h := hcode (opCode c)
  · cases hp : presentBit c <;> simp [decode, h, hp]
  · simp [decode, h]
  · simp [decode, h]
  · simp [decode, h]
  · obtain h | h | h | h := h <;> simp [decode, h]

/-! ### Decoder and encoder are inverse -/

/-- The word of `init` as the concatenation of the fields of R40. -/
theorem initWord_fields (pinA pinB : PinId) (pulses : Pulses) :
    let c : Command := pulses ++ 0x00#8 ++ pinB ++ pinA ++ 0x09#8
    c.extractLsb' 0 8 = 0x09#8 ∧ pinAField c = pinA ∧ pinBField c = pinB ∧ c.extractLsb' 24 8 = 0x00#8 ∧
      pulsesField c = pulses := by
  refine ⟨BitVec.extractLsb'_append_eq_right, ?_, ?_, ?_, ?_⟩
  · rw [pinAField, BitVec.extractLsb'_append_eq_of_le (by decide)]
    exact BitVec.extractLsb'_append_eq_right
  · rw [pinBField, BitVec.extractLsb'_append_eq_of_le (by decide), BitVec.extractLsb'_append_eq_of_le (by decide)]
    exact BitVec.extractLsb'_append_eq_right
  · rw [BitVec.extractLsb'_append_eq_of_le (by decide), BitVec.extractLsb'_append_eq_of_le (by decide),
      BitVec.extractLsb'_append_eq_of_le (by decide)]
    exact BitVec.extractLsb'_append_eq_right
  · rw [pulsesField, BitVec.extractLsb'_append_eq_of_le (by decide), BitVec.extractLsb'_append_eq_of_le (by decide),
      BitVec.extractLsb'_append_eq_of_le (by decide)]
    exact BitVec.extractLsb'_append_eq_left

/-- A word is its fields, one above the other. -/
theorem fields_append (c : Command) :
    pulsesField c ++ c.extractLsb' 24 8 ++ pinBField c ++ pinAField c ++ c.extractLsb' 0 8 = c := by
  have h (a n m : Nat) : c.extractLsb' (a + m) n ++ c.extractLsb' a m = c.extractLsb' a (n + m) :=
    BitVec.extractLsb'_append_extractLsb'_eq_extractLsb' rfl
  rw [pulsesField, pinBField, pinAField]
  have h1 : c.extractLsb' 32 32 ++ c.extractLsb' 24 8 = c.extractLsb' 24 40 := h 24 32 8
  have h2 : c.extractLsb' 24 40 ++ c.extractLsb' 16 8 = c.extractLsb' 16 48 := h 16 40 8
  have h3 : c.extractLsb' 16 48 ++ c.extractLsb' 8 8 = c.extractLsb' 8 56 := h 8 48 8
  have h4 : c.extractLsb' 8 56 ++ c.extractLsb' 0 8 = c.extractLsb' 0 64 := h 0 56 8
  rw [h1, h2, h3, h4, BitVec.extractLsb'_eq_self]

/-- The low byte of a word is its two low nibbles. -/
theorem lowByte_append (c : Command) : c.extractLsb' 4 4 ++ c.extractLsb' 0 4 = c.extractLsb' 0 8 :=
  BitVec.extractLsb'_append_extractLsb'_eq_extractLsb' (start₁ := 0) rfl

/-- A word of three low bits: `DEINIT`, `GET`, `RESET`. -/
theorem plainWord_append (c : Command) : c.extractLsb' 3 61 ++ opCode c = c :=
  BitVec.extractLsb'_append_extractLsb' (w := 61) (len := 3)

/-- A word of four low bits: `INIT` without a configuration. -/
theorem initNullWord_append (c : Command) : c.extractLsb' 4 60 ++ c.extractLsb' 0 4 = c :=
  BitVec.extractLsb'_append_extractLsb' (w := 60) (len := 4)

/-- The low byte of the word of `init`: its reserved nibble and its form. -/
theorem lowByte_eq_init_iff (c : Command) :
    c.extractLsb' 0 8 = 0x09#8 ↔ c.extractLsb' 4 4 = 0#4 ∧ c.extractLsb' 0 4 = 0b1001#4 := by
  rw [← lowByte_append]
  refine ⟨fun h => ⟨?_, ?_⟩, fun ⟨hhigh, hlow⟩ => by rw [hhigh, hlow]; rfl⟩
  · exact BitVec.extractLsb'_append_eq_left.symm.trans (congrArg (BitVec.extractLsb' 4 4) h)
  · exact BitVec.extractLsb'_append_eq_right.symm.trans (congrArg (BitVec.extractLsb' 0 4) h)

theorem decode_initWord (pinA pinB : PinId) (pulses : Pulses) :
    decode (pulses ++ 0x00#8 ++ pinB ++ pinA ++ 0x09#8) = .ok (.init pinA pinB pulses) := by
  obtain ⟨hlow, hA, hB, hgap, hpulses⟩ := initWord_fields pinA pinB pulses
  generalize (pulses ++ 0x00#8 ++ pinB ++ pinA ++ 0x09#8 : Command) = c at *
  obtain ⟨hnibble, hform⟩ := (lowByte_eq_init_iff c).1 hlow
  obtain ⟨hcode, hpresent⟩ := (lowBits_eq_init_iff c).1 hform
  rw [decode, if_pos hcode, if_pos hpresent, hA, hB, hpulses]
  exact withoutReserved_eq_ok_iff.2 ⟨(and_reservedInit_iff c).2 ⟨hgap, hnibble⟩, rfl⟩

/-- Settles O2: the operand fields of the word of `init` hold its operands; the other words are constants. -/
theorem decodeOfEncodeIsTheCommand : Obligations.DecodeOfEncodeIsTheCommand := by
  intro i
  cases i with
  | init pinA pinB pulses =>
    exact ⟨⟨fun _ => ⟨_, rfl⟩, fun _ => rfl⟩,
      fun c h => by injection h with h; exact h ▸ decode_initWord pinA pinB pulses⟩
  | initNull | deinit | get | reset =>
    exact ⟨⟨fun _ => ⟨_, rfl⟩, fun _ => rfl⟩, fun c h => by injection h with h; subst h; decide⟩
  | isr | pins => simp [Instr.wf, Instr.isCommand, encode]

theorem eq_of_reservedInit {c : Command} (hform : c.extractLsb' 0 4 = 0b1001#4) (h : c &&& reservedInit = 0#64) :
    c = pulsesField c ++ 0x00#8 ++ pinBField c ++ pinAField c ++ 0x09#8 := by
  obtain ⟨hgap, hnibble⟩ := (and_reservedInit_iff c).1 h
  rw [← hgap, ← (lowByte_eq_init_iff c).2 ⟨hnibble, hform⟩, fields_append]

theorem eq_of_reservedInitNull {c : Command} (h : c &&& reservedInitNull = 0#64) : c = 0#60 ++ c.extractLsb' 0 4 := by
  rw [← (and_reservedInitNull_iff c).1 h, initNullWord_append]

theorem eq_of_reservedPlain {c : Command} (h : c &&& reservedPlain = 0#64) : c = 0#61 ++ opCode c := by
  rw [← (and_reservedPlain_iff c).1 h, plainWord_append]

/-- Settles O3: a decoded word has no reserved bit set, so it is what its form and its operand fields say. -/
theorem encodeOfDecodeIsTheWord : Obligations.EncodeOfDecodeIsTheWord := by
  intro c i hd
  obtain ⟨hform, e⟩ | ⟨hform, e⟩ | ⟨hcode, e⟩ | ⟨hcode, e⟩ | ⟨hcode, e⟩ | ⟨-, e⟩ := decode_cases c <;> rw [e] at hd
  · obtain ⟨hres, rfl⟩ := withoutReserved_eq_ok_iff.1 hd
    exact congrArg some (eq_of_reservedInit hform hres).symm
  · obtain ⟨hres, rfl⟩ := withoutReserved_eq_ok_iff.1 hd
    rw [eq_of_reservedInitNull hres, hform]; rfl
  · obtain ⟨hres, rfl⟩ := withoutReserved_eq_ok_iff.1 hd
    rw [eq_of_reservedPlain hres, hcode]; rfl
  · obtain ⟨hres, rfl⟩ := withoutReserved_eq_ok_iff.1 hd
    rw [eq_of_reservedPlain hres, hcode]; rfl
  · obtain ⟨hres, rfl⟩ := withoutReserved_eq_ok_iff.1 hd
    rw [eq_of_reservedPlain hres, hcode]; rfl
  · simp at hd

/-- Settles O1: each of the six words is decoded by computation. -/
theorem specWordsDecode : Obligations.SpecWordsDecode := by
  unfold Obligations.SpecWordsDecode; decide

/-! ### Reserved words (R43) -/

/-- A reserved bit of the word's form (R40) is set. -/
def reservedBit (c : Command) : Prop :=
  (c.extractLsb' 0 4 = 0b1001#4 ∧ (c.extractLsb' 24 8 ≠ 0#8 ∨ c.extractLsb' 4 4 ≠ 0#4)) ∨
  (c.extractLsb' 0 4 = 0b0001#4 ∧ c.extractLsb' 4 60 ≠ 0#60) ∨
  ((opCode c = 0b010#3 ∨ opCode c = 0b011#3 ∨ opCode c = 0b100#3) ∧ c.extractLsb' 3 61 ≠ 0#61)

theorem decode_of_reservedCode {c : Command} (h : reservedCode c) : decode c = .error .reservedCommand := by
  obtain h | h | h | h := h <;> simp [decode, h]

theorem decode_of_reservedBit {c : Command} (h : reservedBit c) : decode c = .error .reservedBits := by
  obtain ⟨hform, hbit⟩ | ⟨hform, hbit⟩ | ⟨hcode, hbit⟩ := h
  · obtain ⟨hcode, hpresent⟩ := (lowBits_eq_init_iff c).1 hform
    rw [decode, if_pos hcode, if_pos hpresent]
    exact withoutReserved_of_reserved fun h0 => not_and_or.2 hbit ((and_reservedInit_iff c).1 h0)
  · obtain ⟨hcode, hpresent⟩ := (lowBits_eq_initNull_iff c).1 hform
    rw [decode, if_pos hcode, hpresent]
    exact withoutReserved_of_reserved fun h0 => hbit ((and_reservedInitNull_iff c).1 h0)
  · have hmask : c &&& reservedPlain ≠ 0#64 := fun h0 => hbit ((and_reservedPlain_iff c).1 h0)
    obtain hcode | hcode | hcode := hcode <;> simp [decode, hcode, withoutReserved_of_reserved hmask]

theorem decode_of_not_reserved {c : Command} (hcode : ¬ reservedCode c) (hbit : ¬ reservedBit c) :
    ∃ i, decode c = .ok i := by
  unfold reservedBit at hbit
  obtain ⟨h, e⟩ | ⟨h, e⟩ | ⟨h, e⟩ | ⟨h, e⟩ | ⟨h, e⟩ | ⟨h, -⟩ := decode_cases c
  · exact ⟨_, e.trans (withoutReserved_eq_ok_iff.2 ⟨(and_reservedInit_iff c).2 (by tauto), rfl⟩)⟩
  · exact ⟨_, e.trans (withoutReserved_eq_ok_iff.2 ⟨(and_reservedInitNull_iff c).2 (by tauto), rfl⟩)⟩
  · exact ⟨_, e.trans (withoutReserved_eq_ok_iff.2 ⟨(and_reservedPlain_iff c).2 (by tauto), rfl⟩)⟩
  · exact ⟨_, e.trans (withoutReserved_eq_ok_iff.2 ⟨(and_reservedPlain_iff c).2 (by tauto), rfl⟩)⟩
  · exact ⟨_, e.trans (withoutReserved_eq_ok_iff.2 ⟨(and_reservedPlain_iff c).2 (by tauto), rfl⟩)⟩
  · exact absurd h hcode

end Sys2Proof

namespace Sys2Proof.Machine

/-! ### What a turn comes to (R8, R36) -/

theorem step_of_idle_agent {s : State} {a : Nat} {ts : List Turn} (hs : s.sched = .agent a :: ts)
    (hp : listFor s.programs a = []) : step s = .next { s with sched := ts } := by
  simp [step, fetch, hs, fetchAgent, hp]

theorem step_of_command {s : State} {a : Nat} {ts : List Turn} {c : Command} {rest : List Command} {i : Instr}
    (hs : s.sched = .agent a :: ts) (hp : listFor s.programs a = c :: rest) (hd : decode c = .ok i) :
    step s = exec i { s with sched := ts, actor := a } := by
  simp [step, fetch, hs, fetchAgent, hp, hd]

theorem step_of_refused {s : State} {a : Nat} {ts : List Turn} {c : Command} {rest : List Command} {r : RefuseReason}
    (hs : s.sched = .agent a :: ts) (hp : listFor s.programs a = c :: rest) (hd : decode c = .error r) :
    step s = .next { s with
      sched := ts, actor := a, programs := setListFor s.programs a rest, refusedMarks := s.refusedMarks.add r } := by
  simp [step, fetch, hs, fetchAgent, hp, hd, State.refuse, nextPrograms]

theorem step_of_decoder {s : State} {ts : List Turn} (hs : s.sched = .decoder :: ts) :
    step s = exec .isr { s with sched := ts } := by
  simp [step, fetch, hs]

theorem step_of_environment {s : State} {ts : List Turn} {q : Phase} {qs : List Phase}
    (hs : s.sched = .environment :: ts) (hq : s.script = q :: qs) :
    step s = exec (.pins q) { s with sched := ts, script := qs } := by
  simp [step, fetch, hs, fetchEnvironment, hq]

theorem step_of_idle_environment {s : State} {ts : List Turn} (hs : s.sched = .environment :: ts)
    (hq : s.script = []) : step s = .next { s with sched := ts } := by
  simp [step, fetch, hs, fetchEnvironment, hq]

theorem step_of_no_turn {s : State} (hs : s.sched = []) : step s = .next s := by
  simp [step, fetch, hs]

/-- Settles O4: a reserved word decodes to its reason, and the turn of its agent refuses it. -/
theorem reservedWordsAreRefused : Obligations.ReservedWordsAreRefused := fun _ _ _ _ _ hs hp =>
  ⟨fun h => step_of_refused hs hp (decode_of_reservedCode h), fun h => step_of_refused hs hp (decode_of_reservedBit h),
    decode_of_not_reserved⟩

/-- Settles O5: one lemma for each kind of turn. -/
theorem stepRunsTheDecodedOperation : Obligations.StepRunsTheDecodedOperation := fun _ =>
  ⟨fun _ _ _ _ _ => step_of_command, fun _ => step_of_decoder, fun _ _ _ => step_of_environment,
    fun _ _ => step_of_idle_agent, fun _ => step_of_idle_environment, step_of_no_turn⟩

end Sys2Proof.Machine
end

section
/-! PROOFS. The transition ROM (spec/40_transition_rom.md sections 2 to 4): the default table by computation, and what
holds of every admitted one. -/

namespace Sys2Proof

namespace Params

variable {P : Params}

/-- From row `r` both full cycles tag once, at their end, with their own tag. -/
theorem cyclesTagFrom_iff {r : Fin 7} :
    P.cyclesTagFrom r = true ↔
      P.tt.pathTags r Rom.cwPhases = [0#4, 0#4, 0#4, P.tagCw] ∧
        P.tt.pathTags r Rom.ccwPhases = [0#4, 0#4, 0#4, P.tagCcw] := by
  simp [cyclesTagFrom]

/-- R52: one lookup for phase 3 from a reachable configuration leads to a row from which both cycles are counted. -/
theorem recovery_of_admitted (h : P.admitted = true) {c : Cfg} (hc : P.Reach c) :
    ∃ r, Rom.rowOfWord (P.tt.word c.1 3#2) = some r ∧ P.cyclesTagFrom r = true := by
  obtain ⟨-, -, -, -, -, -, hrecovery⟩ := admitted_iff.1 h
  have hc := List.all_eq_true.1 hrecovery c (mem_reachable h hc)
  obtain ⟨r, hr⟩ := P.rowOfWord_of_admitted h c.1 3#2
  exact ⟨r, hr, by simpa [hr] using hc⟩

end Params

/-- The one reading that differs from `p` in both bits. -/
theorem eq_xor_of_doubleBit {p q : Phase} (h : Machine.doubleBit p q = true) : q = p ^^^ 3#2 := by
  revert p q; decide

/-- Settles O28: R51 and R52 of an admitted table, at the one double-bit reading of the configuration. -/
theorem admittedTablesTagAndRecover : Obligations.AdmittedTablesTagAndRecover := by
  intro P r p h hreach
  refine ⟨fun q hq => ?_, fun hr hu q hq => ?_, ?_⟩
  · exact eq_xor_of_doubleBit hq ▸ Params.doubleBit_untagged h hreach
  · exact eq_xor_of_doubleBit hq ▸ Rom.rowOfWord_eq_some.1 (Params.doubleBit_trap h hreach hr hu)
  · obtain ⟨r', hr, hcycles⟩ := Params.recovery_of_admitted h hreach
    exact ⟨r', hr, Params.cyclesTagFrom_iff.1 hcycles⟩

/-- Settles O26: the closure of the default table and its checks are computed. -/
theorem defaultTableIsAdmitted : Obligations.DefaultTableIsAdmitted := by
  unfold Obligations.DefaultTableIsAdmitted; decide +kernel

/-- Settles O27: 28 cells, read one by one. -/
theorem defaultTableDerivedProperties : Obligations.DefaultTableDerivedProperties := by
  unfold Obligations.DefaultTableDerivedProperties; decide +kernel

end Sys2Proof
end

section
/-! PROOFS. The lifecycle gate (spec/43_controller.md, R72 to R76): which case INIT and DEINIT take, by their guards. -/

namespace Sys2Proof.Machine

/-- Validation accepts distinct valid pins and a pulse count that is not 0 (R70). -/
theorem configValid_iff (P : Params) (pinA pinB : PinId) (pulses : Pulses) :
    configValid P pinA pinB pulses = true ↔
      pinA ≠ pinB ∧ pinA ∈ P.validPins ∧ pinB ∈ P.validPins ∧ pulses ≠ 0#32 := by
  simp [configValid, and_assoc]

theorem bindOf_of_clear {x : BitVec 64} (h : x.getLsbD 32 = false) : bindOf x = none := by rw [bindOf, h]; rfl

theorem bindOf_of_set {x : BitVec 64} (h : x.getLsbD 32 = true) : bindOf x = some (x.extractLsb' 0 32) := by
  simp [bindOf, h]

theorem life_of_ne_uninitialized {l : Life} (h : l ≠ .uninitialized) : l = .initialized := by
  cases l with
  | initialized => rfl
  | uninitialized => exact absurd rfl h

variable {pinA pinB : PinId} {pulses : Pulses} {s : State}

/-- An accepted configuration whose binding succeeds is committed (R71, R73). -/
theorem initStep_of_bound (ho : s.own = .none) (hl : s.life = .uninitialized)
    (hv : configValid s.params pinA pinB pulses = true) (hb : bindOf s.drawn = none) :
    initStep pinA pinB pulses s = (s.afterDraw.commitInit pulses).answer .ok := by
  simp [initStep, initUninitialized, ho, hl, hv, hb]

/-- An accepted configuration whose binding fails is answered with the collaborator's code (R71, R72). -/
theorem initStep_of_bindingFailed {code : PlatformCode} (ho : s.own = .none) (hl : s.life = .uninitialized)
    (hv : configValid s.params pinA pinB pulses = true) (hb : bindOf s.drawn = some code) :
    initStep pinA pinB pulses s = s.afterDraw.answer (.platformError code) := by
  simp [initStep, initUninitialized, ho, hl, hv, hb]

theorem initStep_of_initialized (ho : s.own = .none) (hl : s.life = .initialized) :
    initStep pinA pinB pulses s = s.refuse .initWhileInitialized := by
  simp [initStep, ho, hl]

theorem initNullStep_of_initialized (ho : s.own = .none) (hl : s.life = .initialized) :
    initNullStep s = s.refuse .initWhileInitialized := by
  simp [initNullStep, ho, hl]

theorem initStep_of_taken (ho : s.own ≠ .none) : initStep pinA pinB pulses s = s := by
  simp [initStep, ho]

theorem initNullStep_of_taken (ho : s.own ≠ .none) : initNullStep s = s := by
  simp [initNullStep, ho]

theorem deinitStep_of_free (ho : s.own = .none) (hl : s.life = .initialized) :
    deinitStep s = State.answer { s with irq := false, life := .uninitialized } .ok := by
  simp [deinitStep, ho, hl]

theorem deinitStep_of_uninitialized (hl : s.life = .uninitialized) : deinitStep s = s.answer .failed := by
  simp [deinitStep, hl]

theorem deinitStep_of_taken (hl : s.life = .initialized) (ho : s.own ≠ .none) : deinitStep s = s := by
  simp [deinitStep, ho, hl]

/-- Settles O6: the configuration is accepted, the draw is `Ok`, and the commit writes what the record says. -/
theorem initCommits : Obligations.InitCommits := fun _ _ _ _ ho hl hne hA hB hn hdraw =>
  exec_next_iff.2 (initStep_of_bound ho hl ((configValid_iff ..).2 ⟨hne, hA, hB, hn⟩) (bindOf_of_clear hdraw))

/-- Settles O7: the configuration is accepted, the draw is an error, and only its answer is made. -/
theorem initBindingFailureChangesNothing : Obligations.InitBindingFailureChangesNothing :=
  fun _ _ _ _ ho hl hne hA hB hn hdraw =>
    exec_next_iff.2 (initStep_of_bindingFailed ho hl ((configValid_iff ..).2 ⟨hne, hA, hB, hn⟩) (bindOf_of_set hdraw))

/-- Settles O9: both forms come to the refusal, which sets the mark and ends the line. -/
theorem initWhileInitializedIsRefused : Obligations.InitWhileInitializedIsRefused := fun _ _ _ _ ho hl =>
  ⟨exec_next_iff.2 (initStep_of_initialized ho hl), exec_next_iff.2 (initNullStep_of_initialized ho hl)⟩

/-- Settles O11: the three cases of DEINIT. -/
theorem deinitUnbinds : Obligations.DeinitUnbinds := fun _ =>
  ⟨fun hl ho => exec_next_iff.2 (deinitStep_of_free ho hl), fun hl => exec_next_iff.2 (deinitStep_of_uninitialized hl),
    fun hl ho => exec_next_iff.2 (deinitStep_of_taken hl ho)⟩

end Sys2Proof.Machine
end

section
/-! PROOFS. The read gate and RESET_BEGIN (spec/42_position_access.md, R64, R66), and the split read port (R29). -/

namespace Sys2Proof.Machine

variable {s : State}

theorem getStep_of_uninitialized (hl : s.life = .uninitialized) : getStep s = s.answer .notInitialized := by
  simp [getStep, hl]

theorem getStep_of_free (hl : s.life = .initialized) (ho : s.own = .none) : getStep s = s.answer (.okValue s.acc) := by
  simp [getStep, hl, ho]

/-- A read that races a write in flight returns a drawn value (R64). -/
theorem getStep_of_taken (hl : s.life = .initialized) (ho : s.own ≠ .none) :
    getStep s = s.afterDraw.answer (.okValue (racingOf s.params.readAtomic s.acc s.wpend s.drawn)) := by
  simp [getStep, hl, ho]

theorem racingOf_torn (acc wpend x : F64) : racingOf false acc wpend x = x := rfl

theorem racingOf_atomic (acc wpend x : F64) : racingOf true acc wpend x = if x.getLsbD 0 then wpend else acc := rfl

/-- Settles O12: the three cases of GET, the racing one by `READ_ATOMIC`; a listed input is the next draw. -/
theorem getReturnsThePosition : Obligations.GetReturnsThePosition := by
  refine fun s => ⟨fun hl => ?_, fun hl ho => ?_, fun hl ho hr => ?_, fun hl ho hr => ?_, fun v hl ho hr => ?_⟩
  · exact exec_next_iff.2 (getStep_of_uninitialized hl)
  · exact exec_next_iff.2 (getStep_of_free hl ho)
  · refine exec_next_iff.2 ((getStep_of_taken hl ho).trans ?_)
    rw [hr, racingOf_torn]; rfl
  · refine exec_next_iff.2 ((getStep_of_taken hl ho).trans ?_)
    rw [hr, racingOf_atomic]; rfl
  · refine exec_next_iff.2 ((getStep_of_taken (s := { s with inputs := v :: s.inputs }) hl ho).trans ?_)
    rw [hr, racingOf_torn]; rfl

theorem resetStep_of_uninitialized (hn : ¬ (s.own = .ctrl ∧ s.caller = s.actor)) (hl : s.life = .uninitialized) :
    resetStep s = s.answer .notInitialized := by
  rw [resetStep, if_neg hn, resetBegin, if_pos hl]

theorem resetStep_of_taken (hn : ¬ (s.own = .ctrl ∧ s.caller = s.actor)) (hl : s.life = .initialized)
    (ho : s.own ≠ .none) : resetStep s = s := by
  rw [resetStep, if_neg hn, resetBegin, if_neg (by simp [hl]), if_pos ho, State.hold_eq]

/-- Settles O13: the three cases of RESET_BEGIN. -/
theorem resetBeginTakesTheToken : Obligations.ResetBeginTakesTheToken := fun _ hn =>
  ⟨fun hl => exec_next_iff.2 (resetStep_of_uninitialized hn hl),
    fun hl ho => exec_next_iff.2 (resetStep_of_taken hn hl ho), fun hl ho => exec_next_iff.2 (resetStep_of_free hl ho)⟩

/-- Settles O16: the two port words are adjacent ranges that cover the value. -/
theorem portWordsJoinToTheValue : Obligations.PortWordsJoinToTheValue := fun _ =>
  ⟨rfl, rfl, BitVec.extractLsb'_append_extractLsb' (w := 32) (len := 32)⟩

/-- Settles O53: the parameters at power-on are those of the block, as its configuration defines them. -/
theorem blockHasTheDecidedParameters : Obligations.BlockHasTheDecidedParameters :=
  ⟨rfl, rfl, rfl, rfl, rfl, rfl, rfl, rfl, rfl, fun _ _ _ => ⟨rfl, rfl, rfl, rfl⟩⟩

end Sys2Proof.Machine
end

section
/-! PROOFS. The steps of a decode (spec/41_edge_decoder.md, R55, R57): which case DECODE takes, and what storing the
looked-up word makes of its tag (R58). -/

namespace Sys2Proof.Machine

variable {s : State}

/-! ### The lookup (R46) -/

/-- The lookup reads the row of `SUB` only. -/
theorem lookup_congr_row (t : Rom) {sub sub' : RomWord} (p : Phase) (h : rowOf sub = rowOf sub') :
    lookup t sub p = lookup t sub' p := by
  simp only [lookup, h]

theorem toNat_and_mask (sub : RomWord) : (sub &&& 0x0F#8).toNat = (rowOf sub).toNat := by
  simp only [rowOf, BitVec.toNat_and, BitVec.extractLsb'_toNat, BitVec.toNat_ofNat, Nat.shiftRight_zero]
  exact Nat.and_two_pow_sub_one_eq_mod _ 4

theorem rowOf_append (tag row : Nibble) : rowOf (tag ++ row) = row := BitVec.extractLsb'_append_eq_right

/-- Settles O23: the mask 0x0F leaves the row, and the lookup depends on nothing else of `SUB`. -/
theorem lookupUsesTheRowOnly : Obligations.LookupUsesTheRowOnly := by
  intro t sub p
  rw [toNat_and_mask]
  exact ⟨(lookup_eq_none_iff t sub p).2, fun r => lookup_of_row t p r,
    fun tag => lookup_congr_row t p (rowOf_append ..)⟩

/-! ### Storing the word, by its tag -/

theorem storeWord_of_tagCw {w : RomWord} (h : tagOf w = s.params.tagCw) :
    s.storeWord w = { s with sub := w, wpend := fpAdd s.params.fp s.acc s.stepReg, own := .dec } :=
  s.storeWord_of_value ((actionValue_dispatch_eq_some ..).2 (.inl ⟨h, rfl⟩))

theorem storeWord_of_tagCcw {w : RomWord} (hne : tagOf w ≠ s.params.tagCw) (h : tagOf w = s.params.tagCcw) :
    s.storeWord w = { s with sub := w, wpend := fpSub s.params.fp s.acc s.stepReg, own := .dec } :=
  s.storeWord_of_value ((actionValue_dispatch_eq_some ..).2 (.inr ⟨hne, h, rfl⟩))

theorem storeWord_of_untagged {w : RomWord} (hcw : tagOf w ≠ s.params.tagCw) (hccw : tagOf w ≠ s.params.tagCcw) :
    s.storeWord w = { s with sub := w, own := .none } :=
  s.storeWord_of_none ((actionValue_dispatch_eq_none ..).2 ⟨hcw, hccw⟩)

/-! ### The step DECODE takes -/

theorem isrStep_of_ready (hskew : s.params.sampleSkew = false) (hirq : s.irq = true) (hl : s.life = .initialized)
    (ho : s.own = .none) : isrStep s = decBegin s := by
  simp [isrStep, ho, decodeStart, (decoderReady_iff s).2 ⟨hirq, hl, ho⟩, hskew]

theorem isrStep_of_unsampled (hskew : s.params.sampleSkew = true) (hirq : s.irq = true) (hl : s.life = .initialized)
    (ho : s.own = .none) (hlatch : s.slatch = none) : isrStep s = decSample s := by
  simp [isrStep, ho, decodeStart, (decoderReady_iff s).2 ⟨hirq, hl, ho⟩, hskew, hlatch]

theorem isrStep_of_sampled {first : PhaseBit} {level : Bool} (hskew : s.params.sampleSkew = true) (ho : s.own = .dec)
    (hlatch : s.slatch = some (first, level)) : isrStep s = decBeginSkewed first level s := by
  simp [isrStep, ho, decodeResume, hskew, hlatch]

/-- R55: DEC_BEGIN in a row of the ROM. -/
theorem decBegin_of_row {r : Fin 7} (hr : (rowOf s.sub).toNat = r.val) :
    decBegin s = State.storeWord { s with irq := false } (s.params.tt.word r s.phase) := by
  rw [decBegin, lookup_of_row _ _ r hr]

/-- R57: the skewed DEC_BEGIN in a row of the ROM. -/
theorem decBeginSkewed_of_row {first : PhaseBit} {level : Bool} {r : Fin 7} (hr : (rowOf s.sub).toNat = r.val) :
    decBeginSkewed first level s =
      State.storeWord { s with slatch := none } (s.params.tt.word r (joinPhase first level s.phase)) := by
  rw [decBeginSkewed, lookup_of_row _ _ r hr]

theorem decBegin_of_badRow (hr : 6 < (rowOf s.sub).toNat) : decBegin s = s.raiseFault .badRow := by
  rw [decBegin, (lookup_eq_none_iff ..).2 hr]

theorem decBeginSkewed_of_badRow {first : PhaseBit} {level : Bool} (hr : 6 < (rowOf s.sub).toNat) :
    decBeginSkewed first level s = s.raiseFault .badRow := by
  rw [decBeginSkewed, (lookup_eq_none_iff ..).2 hr]

/-- Settles O18: DEC_BEGIN stores the word of its row, by its tag; the token was free, so an untagged word leaves
`OWN`. -/
theorem decodeBeginDispatchesTheTag : Obligations.DecodeBeginDispatchesTheTag := by
  intro s r hskew hirq hl ho hr
  have hbegin := (isrStep_of_ready hskew hirq hl ho).trans (decBegin_of_row hr)
  refine ⟨fun hcw => ?_, fun hne hccw => ?_, fun hne hne' => ?_⟩ <;> refine exec_next_iff.2 (hbegin.trans ?_)
  · exact storeWord_of_tagCw (s := { s with irq := false }) hcw
  · exact storeWord_of_tagCcw (s := { s with irq := false }) hne hccw
  · rw [storeWord_of_untagged (s := { s with irq := false }) hne hne', ← ho]

/-- The reading joined of a latched level and the other bit of the phase is the one with those two bits (R57). -/
theorem eq_joinPhase {first : PhaseBit} {level : Bool} {p phase : Phase}
    (ha : first = .a → p.getLsbD 0 = level ∧ p.getLsbD 1 = phase.getLsbD 1)
    (hb : first = .b → p.getLsbD 1 = level ∧ p.getLsbD 0 = phase.getLsbD 0) : p = joinPhase first level phase := by
  cases first with
  | a => obtain ⟨rfl, h⟩ := ha rfl; revert h; revert p phase; decide
  | b => obtain ⟨rfl, h⟩ := hb rfl; revert h; revert p phase; decide

/-- The level latched by DEC_SAMPLE, by the drawn input (R57). -/
theorem decSample_eq (s : State) : decSample s = { s with
    irq := false, own := .dec, inputs := s.inputs.tail,
    draws := if s.inputs.isEmpty then s.draws + 1 else s.draws,
    slatch := if s.drawn.getLsbD 0 then some (.b, s.phase.getLsbD 1) else some (.a, s.phase.getLsbD 0) } := by
  cases h : s.drawn.getLsbD 0 <;> simp only [decSample, firstOf, h] <;> rfl

/-- Settles O20: the first step is DEC_SAMPLE, the second stores the word looked up for the joined reading, by its
tag; the token is the decoder's, so a tagged word leaves `OWN`. -/
theorem skewedSamplesAreJoined : Obligations.SkewedSamplesAreJoined := by
  refine fun s hskew hl => ⟨fun hirq ho hlatch => ?_, fun first level p r ho hlatch ha hb hr => ?_⟩
  · exact exec_next_iff.2 ((isrStep_of_unsampled hskew hirq hl ho hlatch).trans (decSample_eq s))
  · obtain rfl := eq_joinPhase ha hb
    have hbegin := (isrStep_of_sampled hskew ho hlatch).trans (decBeginSkewed_of_row hr)
    refine ⟨fun hcw => ?_, fun hne hccw => ?_, fun hne hne' => ?_⟩ <;> refine exec_next_iff.2 (hbegin.trans ?_)
    · rw [storeWord_of_tagCw (s := { s with slatch := none }) hcw, ← ho]
    · rw [storeWord_of_tagCcw (s := { s with slatch := none }) hne hccw, ← ho]
    · exact storeWord_of_untagged (s := { s with slatch := none }) hne hne'

/-- A decoder that does not hold the token and may not start holds (R55, R57). -/
theorem isrStep_of_not_ready (ho : s.own ≠ .dec)
    (h : decoderReady s = false ∨ s.params.sampleSkew = true ∧ s.slatch ≠ none) : isrStep s = s := by
  rw [isrStep, if_neg ho, decodeStart]
  obtain hr | ⟨hskew, hlatch⟩ := h
  · simp [hr]
  · simp [hskew, hlatch]

/-- Settles O21: without an edge, a binding or the token the decoder is not ready; else a sample is latched. -/
theorem decoderHoldsUntilReady : Obligations.DecoderHoldsUntilReady := by
  intro s ho hwhy
  refine exec_next_iff.2 (isrStep_of_not_ready ho ?_)
  obtain hirq | hl | hctrl | hlatch := hwhy
  · exact .inl (by simp [decoderReady, hirq])
  · exact .inl (by simp [decoderReady, hl])
  · exact .inl (by simp [decoderReady, hctrl])
  · exact .inr hlatch

/-- Settles O22: the lookup of either DEC_BEGIN finds no word, and the only reason there is gets marked. -/
theorem badRowIsMarked : Obligations.BadRowIsMarked := by
  refine fun s hr => ⟨fun hskew hirq hl ho => ?_, fun hskew ho hlatch => ?_⟩
  · exact exec_next_iff.2 ((isrStep_of_ready hskew hirq hl ho).trans (decBegin_of_badRow hr))
  · obtain ⟨⟨first, level⟩, hsample⟩ := Option.ne_none_iff_exists'.1 hlatch
    exact exec_next_iff.2 ((isrStep_of_sampled hskew ho hsample).trans (decBeginSkewed_of_badRow hr))

end Sys2Proof.Machine
end

section
/-! PROOFS. The token and lifecycle invariant (spec/10_state.md section 2, spec/20_memory.md section 3): every shared
operation keeps it, so every effect and every step does; and what it shuts out: a faulting decode (R46, R80), a write
to a reset's zero (R34) and a sample left latched at INIT (R92). -/

namespace Sys2Proof.Machine

variable {s u t : State}

/-! ### What the invariant gives -/

/-- Only the decoder between its two samples has a latched sample (R22). -/
theorem TokenInv.slatch_eq_none (h : TokenInv s) (ho : s.own ≠ .dec) : s.slatch = none :=
  Option.isNone_iff_eq_none.1 (Option.isSome_eq_false_iff.1 (Bool.eq_false_iff.2 fun hl => ho (h.latch hl).2))

/-- A token that is taken belongs to an initialized block (R63). -/
theorem TokenInv.initialized (h : TokenInv s) (ho : s.own ≠ .none) : s.life = .initialized :=
  life_of_ne_uninitialized fun hl => ho (h.idle hl).1

/-- Past DEC_BEGIN no sample is latched (R57). -/
theorem TokenInv.slatch_of_decoding (h : TokenInv s) (hd : s.decoding = true) : s.slatch = none := by
  obtain ⟨-, hskew | hl⟩ := s.decoding_iff.1 hd
  · refine Option.not_isSome_iff_eq_none.1 fun hsome => ?_
    simp [(h.latch hsome).1] at hskew
  · exact hl

/-! ### The shared operations keep it -/

theorem TokenInv.answer (h : TokenInv s) (st : Status) : TokenInv (s.answer st) :=
  { h with programs := agentListsWf_nextPrograms h.programs }

theorem TokenInv.refuse (h : TokenInv s) (r : RefuseReason) : TokenInv (s.refuse r) :=
  { h with programs := agentListsWf_nextPrograms h.programs }

theorem TokenInv.raiseFault (h : TokenInv s) (r : Fault) : TokenInv (s.raiseFault r) := { h with }

theorem TokenInv.afterDraw (h : TokenInv s) : TokenInv s.afterDraw := { h with }

/-- Taking a turn changes no register. -/
theorem TokenInv.ofTurn (h : TokenInv s) (ts : List Turn) (qs : List Phase) (a : Nat) :
    TokenInv { s with sched := ts, script := qs, actor := a } := { h with }

/-- A commit, by the decoder past DEC_BEGIN or by a controller, frees the token with no sample latched. -/
theorem TokenInv.commitWrite (h : TokenInv s) (hl : s.slatch = none) : TokenInv s.commitWrite :=
  { h with
    idle := fun hu => ⟨rfl, (h.idle hu).2⟩
    latch := fun hs => by simp [hl] at hs
    resetValue := nofun
    decodeValue := nofun }

theorem TokenInv.commitInit (h : TokenInv s) (ho : s.own = .none) (n : Pulses) : TokenInv (s.commitInit n) :=
  { h with
    idle := nofun
    resetValue := fun hc => by simp [ho] at hc
    decodeValue := fun hd => by simp [State.decoding, ho] at hd
    row := fun _ => by simp; omega
    tag := fun _ => .inl (by simp) }

theorem TokenInv.unbind (h : TokenInv s) (ho : s.own = .none) :
    TokenInv { s with irq := false, life := .uninitialized } :=
  { h with
    idle := fun _ => ⟨ho, rfl⟩
    row := nofun
    tag := nofun }

theorem TokenInv.resetBegin (h : TokenInv s) (hi : s.life = .initialized) (ho : s.own = .none) :
    TokenInv { s with own := .ctrl, caller := s.actor, wpend := f0 } :=
  { h with
    idle := fun hu => by simp [hi] at hu
    latch := fun hs => by simp [h.slatch_eq_none (by simp [ho])] at hs
    resetValue := fun _ => rfl
    decodeValue := nofun }

theorem TokenInv.decSample (h : TokenInv s) (hi : s.life = .initialized) (hskew : s.params.sampleSkew = true) :
    TokenInv (decSample s) :=
  { h with
    idle := fun hu => by simp [hi] at hu
    latch := fun _ => ⟨hskew, rfl⟩
    resetValue := nofun
    decodeValue := fun hd => by simp [State.decoding, hskew] at hd }

/-- The end of DEC_BEGIN, the edge consumed or not and the sample used up: the word of an admitted ROM leaves a row of
0 to 6 and one of the three tags (R48), and with a tag its update is what is pending. -/
theorem TokenInv.storeWord (h : TokenInv s) (hi : s.life = .initialized) (edge : Bool) (r : Fin 7) (p : Phase) :
    TokenInv (State.storeWord { s with irq := edge, slatch := none } (s.params.tt.word r p)) := by
  have hrow := row_le_of_admitted h.admitted r p
  have htag := s.params.tag_of_admitted h.admitted r p
  obtain ⟨v, hv, e⟩ | ⟨-, e⟩ := storeWord_cases { s with irq := edge, slatch := none } (s.params.tt.word r p) <;> rw [e]
  · exact { h with
      idle := fun hu => by simp [hi] at hu
      latch := nofun
      resetValue := nofun
      decodeValue := fun _ => hv
      row := fun _ => hrow
      tag := fun _ => htag }
  · exact { h with
      idle := fun hu => by simp [hi] at hu
      latch := nofun
      resetValue := nofun
      decodeValue := nofun
      row := fun _ => hrow
      tag := fun _ => htag }

theorem TokenInv.pinsStep (h : TokenInv s) (q : Phase) : TokenInv (pinsStep q s) :=
  { h with
    idle := fun hu => ⟨(h.idle hu).1, by simp [(h.idle hu).2, edgeLatched, show s.life = .uninitialized from hu]⟩ }

/-! ### Every effect and every step keeps it -/

theorem Effect.tokenInv {i : Instr} (he : Effect u i t) (h : TokenInv u) : TokenInv t := by
  cases he with
  | holdInit | holdInitNull | holdDeinit | holdReset | holdIsr => exact h
  | refuseInit | refuseInitNull => exact h.refuse _
  | invalid | invalidNull | deinitFailed | getNotInitialized | get | resetNotInitialized => exact h.answer _
  | bindingFailed | getRacing => exact h.afterDraw.answer _
  | commitInit ho => exact (h.afterDraw.commitInit ho _).answer _
  | deinit _ ho => exact (h.unbind ho).answer _
  | resetBegin hi ho => exact h.resetBegin hi ho
  | resetCommit ho => exact (h.commitWrite (h.slatch_eq_none (by simp [ho]))).answer _
  | sample _ hi _ hskew => exact h.decSample hi hskew
  | badRow | badRowSkewed => exact h.raiseFault _
  | begin r _ hi ho => simpa [h.slatch_eq_none (s := u) (by simp [ho])] using h.storeWord hi false r u.phase
  | beginSkewed first level r ho => exact h.storeWord (h.initialized (by simp [ho])) u.irq r _
  | decCommit _ hd => exact h.commitWrite (h.slatch_of_decoding hd)
  | pins q => exact h.pinsStep q

/-- Settles O43: a turn changes nothing the invariant speaks of, and every effect keeps it. -/
theorem tokenInvariantIsKept : Obligations.TokenInvariantIsKept := by
  intro s t h hstep
  cases step_effect hstep with
  | idle => exact h.ofTurn _ _ _
  | refused a ts => exact (h.ofTurn ts _ a).refuse _
  | command a ts _ _ _ _ _ _ _ _ he => exact he.tokenInv (h.ofTurn ts _ a)
  | decoder ts _ _ he => exact he.tokenInv (h.ofTurn ts _ _)
  | environment ts q qs => exact (h.ofTurn ts qs _).pinsStep q

/-- Settles O44: nothing is held or pending at power-on, and this block's ROM is admitted. -/
theorem tokenInvariantAtReset : Obligations.TokenInvariantAtReset :=
  { admitted := defaultTableIsAdmitted.1
    idle := fun _ => ⟨rfl, rfl⟩
    latch := nofun
    resetValue := nofun
    decodeValue := nofun
    row := nofun
    tag := nofun
    programs := rfl }

/-! ### What the invariant shuts out -/

/-- A decode that marks a bad row would have met a row of 7 to 15 while initialized. -/
theorem Effect.faultMarks_eq {i : Instr} (he : Effect u i t) (h : TokenInv u) : t.faultMarks = u.faultMarks := by
  cases he with
  | badRow _ hi _ _ hrow => exact absurd (h.row hi) (Nat.not_le.2 hrow)
  | badRowSkewed ho _ _ hrow => exact absurd (h.row (h.initialized (by simp [ho]))) (Nat.not_le.2 hrow)
  | _ => simp

/-- Settles O45: only a decode in a row of 7 to 15 faults, and while initialized the row is one of 0 to 6. -/
theorem badRowIsUnreachable : Obligations.BadRowIsUnreachable := by
  intro s t h hstep
  cases step_effect hstep with
  | idle | refused | environment => simp
  | command a ts _ _ _ _ _ _ _ _ he => exact he.faultMarks_eq (h.ofTurn ts _ a)
  | decoder ts _ _ he => exact he.faultMarks_eq (h.ofTurn ts _ _)

/-- Settles O36: a write to `ACC` that is no commit of the decoder is +0.0, by a reset or an INIT. -/
theorem zeroStaysUntilADecodeCommits : Obligations.ZeroStaysUntilADecodeCommits := by
  intro s t h hzero hstep hno
  obtain e | ⟨hs, -, hd, -⟩ | ⟨-, ho, -, e⟩ | ⟨-, -, e⟩ := (step_effect hstep).acc_cases
  · exact e.trans hzero
  · exact absurd ⟨hd, hs⟩ hno
  · exact e.trans (h.resetValue ho)
  · exact e

/-- The only effect of `init` that returns `Ok` is its commit (R69, R73). -/
theorem Effect.eq_commitInit_of_ok {pinA pinB : PinId} {n : Pulses} (he : Effect u (.init pinA pinB n) t)
    (hret : t.returned = u.returned ++ [(u.actor, .ok)]) :
    u.own = .none ∧ t = (u.afterDraw.commitInit n).answer .ok := by
  cases he with
  | commitInit ho => exact ⟨ho, rfl⟩
  | _ => simp at hret

/-- Settles O10: the commit of INIT writes the registers it names; the token was free, so no sample was latched. -/
theorem stateAfterInitInFull : Obligations.StateAfterInitInFull := by
  intro pinA pinB n s t h hexec hret
  obtain ⟨ho, rfl⟩ := (effect_of_exec hexec).eq_commitInit_of_ok hret
  exact ⟨rfl, rfl, rfl, rfl, ho, rfl, h.slatch_eq_none (by simp [ho]), rfl, rfl⟩

end Sys2Proof.Machine
end

section
/-! PROOFS. The arithmetic of R7 as the statements read it: sums and differences rounded to nearest, the `STEP` of a
pulse count (R15), and the invariant on the numbers in the registers (R15, R65). -/

namespace Sys2Proof.Machine

/-! ### Sums and differences -/

/-- Settles O50: `fsub` is the sum with the negated operand, so both are one use of `sumOr_nearest`. -/
theorem sumsAreCorrectlyRounded : Obligations.SumsAreCorrectlyRounded := by
  intro x y hx hy
  refine ⟨fun h => ?_, fun h => ?_⟩
  · exact (sumOr_nearest _ hx hy h).imp id fun hz z _ => hz z
  · have e : units x - units y = units x + units (negF y) := by rw [units_negF, Int.sub_eq_add_neg]
    rw [e] at h ⊢
    exact (sumOr_nearest _ hx (isFinite_negF hy) h).imp id fun hz z _ => hz z

/-! ### The `STEP` of a pulse count (R15) -/

section Quotient

variable {n b : Nat}

/-- The magnitude pattern of 360 / `n`. -/
def stepPattern (n b : Nat) : Nat := roundMag (360 * 2 ^ b * 2 ^ b) (n * 2 ^ b)

theorem pulses_toNat_ne_zero {pulses : Pulses} (h : pulses ≠ 0#32) : pulses.toNat ≠ 0 :=
  fun h0 => h (BitVec.eq_of_toNat_eq h0)

theorem units_u2f (hn0 : n ≠ 0) (hn : n < 2 ^ 53) : units (u2f n) = (n : Int) * 2 ^ 1074 := by
  obtain ⟨m, e, hm, hmag⟩ := u2f_exact hn0 hn
  obtain ⟨b, hb⟩ : ∃ b, b = 1074 := ⟨1074, rfl⟩
  rw [e, units_packF false (lt_trans hm (by decide)), hmag, ← hb]
  simp

/-- The quotient is at most 360.0, whose pattern this is. -/
theorem stepPattern_le (hn0 : n ≠ 0) (hb : b = 1074) : stepPattern n b ≤ f360.toNat := by
  have hmag : magOf f360.toNat = 360 * 2 ^ b := by rw [← magUnits_f360 hb, magUnits_eq]; rfl
  refine roundMag_le (Nat.mul_pos (Nat.pos_of_ne_zero hn0) (Nat.two_pow_pos b)) (f360_lt_overflow hb hn0) ?_
  rw [hmag]
  exact Nat.mul_le_mul_left _ (Nat.le_mul_of_pos_left _ (Nat.pos_of_ne_zero hn0))

/-- The quotient of a 32-bit count is normal: its pattern has an exponent field of at least 1. -/
theorem le_stepPattern (hn0 : n ≠ 0) (hn : n < 2 ^ 32) (hb : b = 1074) : 2 ^ 52 ≤ stepPattern n b := by
  have hmag : magOf (2 ^ 52) = 2 ^ 52 := by decide
  refine le_roundMag (Nat.mul_pos (Nat.pos_of_ne_zero hn0) (Nat.two_pow_pos b)) (f360_lt_overflow hb hn0) ?_
  rw [hmag, ← Nat.mul_assoc]
  refine Nat.mul_le_mul_right _ ?_
  calc 2 ^ 52 * n ≤ 2 ^ 52 * 2 ^ 32 := Nat.mul_le_mul_left _ hn.le
    _ = 2 ^ 84 := rfl
    _ ≤ 2 ^ b := Nat.pow_le_pow_right (by decide) (by omega)
    _ ≤ 360 * 2 ^ b := Nat.le_mul_of_pos_left _ (by decide)

theorem fdiv_f360_eq (hn0 : n ≠ 0) (hn : n < 2 ^ 32) (hb : b = 1074) :
    fdiv f360 (u2f n) = packF false (stepPattern n b) := fdiv_f360 hn0 hn hb

/-- R15 on the pattern of the quotient: not below the least normal number, not above 360.0. -/
theorem fdiv_f360_toNat (hn0 : n ≠ 0) (hn : n < 2 ^ 32) :
    2 ^ 52 ≤ (fdiv f360 (u2f n)).toNat ∧ (fdiv f360 (u2f n)).toNat ≤ f360.toNat := by
  obtain ⟨b, hb⟩ : ∃ b, b = 1074 := ⟨1074, rfl⟩
  have hle := stepPattern_le hn0 hb
  have h63 : stepPattern n b < 2 ^ 63 := lt_of_le_of_lt hle (by decide)
  rw [fdiv_f360_eq hn0 hn hb, packF_toNat false h63]
  have := le_stepPattern hn0 hn hb
  simp; omega

end Quotient

/-- R15 of a pattern, in its fields. -/
theorem stepFields_of_toNat {x : F64} (hlo : 2 ^ 52 ≤ x.toNat) (hhi : x.toNat ≤ f360.toNat) :
    signBit x = false ∧ 1 ≤ expField x ∧ expField x < 2047 := by
  have h360 : f360.toNat = 4645040803167600640 := by decide
  rw [signBit_eq, expField_eq]
  refine ⟨decide_eq_false ?_, ?_, ?_⟩ <;> omega

/-- Settles O52: the quotient's pattern lies between those of the least normal number and of 360.0. -/
theorem stepIsPositiveNormalAtMost360 : Obligations.StepIsPositiveNormalAtMost360 := by
  intro pulses hp
  obtain ⟨hlo, hhi⟩ := fdiv_f360_toNat (pulses_toNat_ne_zero hp) pulses.isLt
  obtain ⟨hsign, hexp⟩ := stepFields_of_toNat hlo hhi
  exact ⟨hsign, hexp.1, hexp.2, hhi⟩

/-- Both distances of a comparison multiplied by `p`: a nearest fraction of terms scaled by `p` is nearest unscaled. -/
theorem natAbs_scaled (u n e p : Int) : (u * (n * p) - e * p).natAbs = (u * n - e).natAbs * p.natAbs := by
  rw [← Int.natAbs_mul]; congr 1; ring

/-- Settles O51: `roundMag` is nearest to the fraction of the two magnitudes; their common unit is cancelled. -/
theorem stepIsTheCorrectlyRoundedQuotient : Obligations.StepIsTheCorrectlyRoundedQuotient := by
  intro pulses hp
  have hn0 := pulses_toNat_ne_zero hp
  have hn := pulses.isLt
  refine ⟨units_u2f hn0 (by omega), fun z _ => ?_⟩
  obtain ⟨b, hb⟩ : ∃ b, b = 1074 := ⟨1074, rfl⟩
  have hpos : 0 < 2 ^ b := Nat.two_pow_pos b
  obtain ⟨-, hnear⟩ := packF_roundMag_nearest false (360 * 2 ^ b * 2 ^ b) (pulses.toNat * 2 ^ b)
    (Nat.mul_pos (Nat.pos_of_ne_zero hn0) hpos) (f360_lt_overflow hb hn0)
  have hz := hnear z
  rw [← stepPattern, ← fdiv_f360_eq hn0 hn hb] at hz
  have hp0 : 0 < ((2 : Int) ^ b).natAbs := by simp
  simp only [Bool.false_eq_true, if_false, Nat.cast_mul, Nat.cast_pow, Nat.cast_ofNat, natAbs_scaled,
    Nat.mul_le_mul_right_iff hp0, Nat.mul_left_inj hp0.ne'] at hz
  rw [← hb]
  exact hz

/-! ### Values of the position and step registers -/

theorem positionValue_iff (x : F64) : positionValue x = true ↔ isFinite x = true ∧ x ≠ 0x8000000000000000#64 := by
  simp [positionValue]

theorem stepValue_iff (x : F64) :
    stepValue x = true ↔ signBit x = false ∧ 1 ≤ expField x ∧ x.toNat ≤ f360.toNat := by
  simp [stepValue, and_assoc]

theorem stepValue_of_toNat {x : F64} (hlo : 2 ^ 52 ≤ x.toNat) (hhi : x.toNat ≤ f360.toNat) : stepValue x = true := by
  obtain ⟨hsign, hexp, -⟩ := stepFields_of_toNat hlo hhi
  exact (stepValue_iff x).2 ⟨hsign, hexp, hhi⟩

/-- The `STEP` that INIT derives from an accepted pulse count (R15). -/
theorem stepValue_stepOf {pulses : Pulses} (hp : pulses ≠ 0#32) : stepValue (stepOf .binary64 pulses) = true := by
  obtain ⟨hlo, hhi⟩ := fdiv_f360_toNat (pulses_toNat_ne_zero hp) pulses.isLt
  exact stepValue_of_toNat hlo hhi

theorem isFinite_of_stepValue {x : F64} (h : stepValue x = true) : isFinite x = true := by
  obtain ⟨-, -, hle⟩ := (stepValue_iff x).1 h
  have h360 : f360.toNat < infPattern := by decide
  rw [isFinite_iff]; omega

/-- A step register is far from the overflow threshold. -/
theorem magUnits_lt_of_stepValue {x : F64} (h : stepValue x = true) {j : Nat} (hj : j = 2044) : magUnits x < 2 ^ j := by
  obtain ⟨-, -, hle⟩ := (stepValue_iff x).1 h
  obtain ⟨b, hb⟩ : ∃ b, b = 1074 := ⟨1074, rfl⟩
  have h360 : f360.toNat < 2 ^ 63 := by decide
  calc magUnits x ≤ magUnits f360 := by
        rw [magUnits_eq, magUnits_eq]
        exact magOf_strictMono.monotone (by omega)
    _ = 360 * 2 ^ b := magUnits_f360 hb
    _ < 2 ^ 9 * 2 ^ b := Nat.mul_lt_mul_of_pos_right (by decide) (Nat.two_pow_pos b)
    _ = 2 ^ (9 + b) := (pow_add ..).symm
    _ ≤ 2 ^ j := Nat.pow_le_pow_right (by decide) (by omega)

theorem magUnits_negF (x : F64) : magUnits (negF x) = magUnits x := by
  rw [magUnits_eq, negF_mag, ← magUnits_eq]

/-- A number with the sign bit that is not -0.0 is below zero. -/
theorem units_neg_of_signBit {x : F64} (hs : signBit x = true) (hx : x ≠ 0x8000000000000000#64) : units x < 0 := by
  have hge : 2 ^ 63 ≤ x.toNat := by rw [signBit_eq] at hs; exact of_decide_eq_true hs
  have hne : x.toNat ≠ 2 ^ 63 := fun h => hx (BitVec.eq_of_toNat_eq h)
  have hmag : magOf 0 < magOf (x.toNat % 2 ^ 63) := magOf_strictMono (by have := x.isLt; omega)
  rw [magOf_zero, ← magUnits_eq] at hmag
  rw [units, if_pos hs]
  omega

theorem units_nonpos_of_signBit {x : F64} (hs : signBit x = true) : units x ≤ 0 := by
  rw [units, if_pos hs]; omega

/-- A pattern with a magnitude is not -0.0. -/
theorem packF_ne_negZero (neg : Bool) {m : Nat} (h0 : m ≠ 0) (hm : m < 2 ^ 63) :
    packF neg m ≠ 0x8000000000000000#64 := by
  intro h
  have := packF_mag neg hm
  rw [h] at this
  exact h0 this.symm

/-- A nonzero whole number of units is not rounded to zero. -/
theorem roundMag_ne_zero {n : Nat} (h0 : n ≠ 0) (hn : n < overflowUnits) : roundMag n 1 ≠ 0 := by
  have h1 : magOf 1 = 1 := by decide
  have := le_roundMag (z := 1) (n := n) Nat.one_pos (by rwa [Nat.mul_one]) (by rw [h1]; omega)
  omega

/-- R65: a finite number other than -0.0 with a small one added is finite and not -0.0. -/
theorem positionValue_sumOr (nan : F64) {x y : F64} (hx : positionValue x = true) (hy : isFinite y = true) {j : Nat}
    (hj : j = 2044) (hmag : magUnits y < 2 ^ j) : positionValue (sumOr nan x y) = true := by
  obtain ⟨hfin, hne⟩ := (positionValue_iff x).1 hx
  have hov : (units x + units y).natAbs < overflowUnits := by
    refine lt_of_le_of_lt (Int.natAbs_add_le _ _) ?_
    rw [natAbs_units, natAbs_units]
    exact magUnits_add_lt hfin hj hmag
  refine (positionValue_iff _).2 ⟨(sumOr_nearest nan hfin hy hov).1, ?_⟩
  rw [sumOr_of_finite nan hfin hy]
  split
  case isTrue hzero =>
    have hsign : (signBit x && signBit y) = false := by
      refine Bool.eq_false_iff.2 fun h => ?_
      obtain ⟨hsx, hsy⟩ := Bool.and_eq_true_iff.1 h
      have := units_neg_of_signBit hsx hne
      have := units_nonpos_of_signBit hsy
      omega
    rw [hsign]; decide
  case isFalse hnz =>
    have hn : (units x + units y).natAbs < overflowUnits * 1 := by rwa [Nat.mul_one]
    exact packF_ne_negZero _ (roundMag_ne_zero (by omega) hov)
      (lt_trans (roundMag_nearest _ 1 Nat.one_pos hn).1 (by decide))

theorem positionValue_fadd {x y : F64} (hx : positionValue x = true) (hy : stepValue y = true) :
    positionValue (fadd x y) = true :=
  positionValue_sumOr _ hx (isFinite_of_stepValue hy) rfl (magUnits_lt_of_stepValue hy rfl)

theorem positionValue_fsub {x y : F64} (hx : positionValue x = true) (hy : stepValue y = true) :
    positionValue (fsub x y) = true :=
  positionValue_sumOr _ hx (isFinite_negF (isFinite_of_stepValue hy)) rfl
    (by rw [magUnits_negF]; exact magUnits_lt_of_stepValue hy rfl)

end Sys2Proof.Machine
end

section
/-! PROOFS. The invariant on the numbers (R15, R65): a decode's pending value is one rounded step away from a
position, a reset's is +0.0, and INIT derives `STEP` from an accepted pulse count. -/

namespace Sys2Proof.Machine

variable {s u t : State}

theorem positionValue_f0 : positionValue f0 = true := by decide

/-! ### The shared operations keep it -/

theorem NumberInv.initialized (h : NumberInv s) (ho : s.own ≠ .none) : s.life = .initialized :=
  life_of_ne_uninitialized fun hl => ho (h.idle hl)

theorem NumberInv.answer (h : NumberInv s) (st : Status) : NumberInv (s.answer st) := { h with }

theorem NumberInv.refuse (h : NumberInv s) (r : RefuseReason) : NumberInv (s.refuse r) := { h with }

theorem NumberInv.raiseFault (h : NumberInv s) (r : Fault) : NumberInv (s.raiseFault r) := { h with }

theorem NumberInv.afterDraw (h : NumberInv s) : NumberInv s.afterDraw := { h with }

theorem NumberInv.pinsStep (h : NumberInv s) (q : Phase) : NumberInv (pinsStep q s) := { h with }

/-- Taking a turn changes no register. -/
theorem NumberInv.ofTurn (h : NumberInv s) (ts : List Turn) (qs : List Phase) (a : Nat) :
    NumberInv { s with sched := ts, script := qs, actor := a } := { h with }

/-- A commit stores the pending value, which is a position. -/
theorem NumberInv.commitWrite (h : NumberInv s) (hpend : s.own = .ctrl ∨ s.decoding = true) : NumberInv s.commitWrite :=
  { h with
    acc := fun _ => h.wpend hpend
    wpend := by simp [State.decoding]
    idle := fun _ => rfl }

theorem NumberInv.commitInit (h : NumberInv s) (ho : s.own = .none) {n : Pulses} (hn : n ≠ 0#32) :
    NumberInv (s.commitInit n) :=
  { h with
    acc := fun _ => positionValue_f0
    stepReg := fun _ => by rw [State.commitInit_stepReg, h.fp]; exact stepValue_stepOf hn
    wpend := by simp [State.decoding, ho]
    idle := nofun }

theorem NumberInv.unbind (h : NumberInv s) (ho : s.own = .none) :
    NumberInv { s with irq := false, life := .uninitialized } :=
  { h with
    acc := nofun
    stepReg := nofun
    idle := fun _ => ho }

theorem NumberInv.resetBegin (h : NumberInv s) (hi : s.life = .initialized) :
    NumberInv { s with own := .ctrl, caller := s.actor, wpend := f0 } :=
  { h with
    wpend := fun _ => positionValue_f0
    idle := fun hu => by simp [hi] at hu }

theorem NumberInv.decSample (h : NumberInv s) (hi : s.life = .initialized) (hskew : s.params.sampleSkew = true) :
    NumberInv (decSample s) :=
  { h with
    wpend := by simp [State.decoding, hskew]
    idle := fun hu => by simp [hi] at hu }

/-- The update that a tag asks for is a position (R14, R65). -/
theorem NumberInv.positionValue_of_action (h : NumberInv s) (hi : s.life = .initialized) {tag : Nibble} {v : F64}
    (hv : actionValue s.params.fp (dispatch s.params tag) s.acc s.stepReg = some v) : positionValue v = true := by
  rw [h.fp] at hv
  obtain ⟨-, rfl⟩ | ⟨-, -, rfl⟩ := (actionValue_dispatch_eq_some ..).1 hv
  · exact positionValue_fadd (h.acc hi) (h.stepReg hi)
  · exact positionValue_fsub (h.acc hi) (h.stepReg hi)

/-- The end of DEC_BEGIN, the edge consumed or not and the sample used up or not. -/
theorem NumberInv.storeWord (h : NumberInv s) (hi : s.life = .initialized) (edge : Bool)
    (latch : Option (PhaseBit × Bool)) (w : RomWord) :
    NumberInv (State.storeWord { s with irq := edge, slatch := latch } w) := by
  obtain ⟨v, hv, e⟩ | ⟨-, e⟩ := storeWord_cases { s with irq := edge, slatch := latch } w <;> rw [e]
  · exact { h with
      wpend := fun _ => h.positionValue_of_action hi hv
      idle := fun hu => by simp [hi] at hu }
  · exact { h with
      wpend := by simp [State.decoding]
      idle := fun _ => rfl }

/-! ### Every effect and every step keeps it -/

theorem Effect.numberInv {i : Instr} (he : Effect u i t) (h : NumberInv u) : NumberInv t := by
  cases he with
  | holdInit | holdInitNull | holdDeinit | holdReset | holdIsr => exact h
  | refuseInit | refuseInitNull => exact h.refuse _
  | invalid | invalidNull | deinitFailed | getNotInitialized | get | resetNotInitialized => exact h.answer _
  | bindingFailed | getRacing => exact h.afterDraw.answer _
  | commitInit ho _ hvalid =>
    obtain ⟨-, -, -, hn⟩ := (configValid_iff ..).1 hvalid
    exact (h.afterDraw.commitInit ho hn).answer _
  | deinit _ ho => exact (h.unbind ho).answer _
  | resetBegin hi => exact h.resetBegin hi
  | resetCommit ho => exact (h.commitWrite (.inl ho)).answer _
  | sample _ hi _ hskew => exact h.decSample hi hskew
  | badRow | badRowSkewed => exact h.raiseFault _
  | begin _ _ hi => exact h.storeWord hi false u.slatch _
  | beginSkewed _ _ _ ho => exact h.storeWord (h.initialized (by simp [ho])) u.irq none _
  | decCommit _ hd => exact h.commitWrite (.inr hd)
  | pins q => exact h.pinsStep q

/-- Settles O46: a turn changes nothing the invariant speaks of, and every effect keeps it. -/
theorem numberInvariantIsKept : Obligations.NumberInvariantIsKept := by
  intro s t h hstep
  cases step_effect hstep with
  | idle => exact h.ofTurn _ _ _
  | refused a ts => exact (h.ofTurn ts _ a).refuse _
  | command a ts _ _ _ _ _ _ _ _ he => exact he.numberInv (h.ofTurn ts _ a)
  | decoder ts _ _ he => exact he.numberInv (h.ofTurn ts _ _)
  | environment ts q qs => exact (h.ofTurn ts qs _).pinsStep q

/-- Settles O47: at power-on the block is uninitialized and no write is in flight. -/
theorem numberInvariantAtReset : Obligations.NumberInvariantAtReset :=
  { fp := rfl
    acc := nofun
    stepReg := nofun
    wpend := by decide
    idle := fun _ => rfl }

end Sys2Proof.Machine
end

section
/-! PROOFS. Frames and holds (R8, R32, R33): what each operation leaves alone, and that one that is not enabled
changes nothing. -/

namespace Sys2Proof.Machine

variable {s u t : State} {i : Instr}

/-! ### Frames of the operations -/

/-- No operation takes a turn, changes whose command is run or the script. -/
theorem Effect.frame (he : Effect u i t) : t.script = u.script ∧ t.sched = u.sched ∧ t.actor = u.actor := by
  cases he <;> simp

/-- A command leaves the phase, the sample latch and the faults alone. -/
theorem Effect.command_frame (he : Effect u i t) (hc : i.isCommand = true) :
    t.phase = u.phase ∧ t.slatch = u.slatch ∧ t.faultMarks = u.faultMarks := by
  cases he with
  | holdIsr | sample | badRow | begin | badRowSkewed | beginSkewed | decCommit | pins => cases hc
  | _ => simp

theorem Effect.init_frame {pinA pinB : PinId} {pulses : Pulses} (he : Effect u (.init pinA pinB pulses) t) :
    { t with
      sub := u.sub, acc := u.acc, stepReg := u.stepReg, irq := u.irq, life := u.life, refusedMarks := u.refusedMarks,
      returned := u.returned, programs := u.programs, inputs := u.inputs, draws := u.draws } = u := by
  cases he <;> rfl

theorem Effect.initNull_frame (he : Effect u .initNull t) :
    { t with refusedMarks := u.refusedMarks, returned := u.returned, programs := u.programs } = u := by
  cases he <;> rfl

theorem Effect.get_frame (he : Effect u .get t) :
    { t with returned := u.returned, programs := u.programs, inputs := u.inputs, draws := u.draws } = u := by
  cases he <;> rfl

theorem Effect.reset_frame (he : Effect u .reset t) :
    { t with
      acc := u.acc, own := u.own, caller := u.caller, wpend := u.wpend, returned := u.returned,
      programs := u.programs } = u := by
  cases he <;> rfl

theorem Effect.deinit_frame (he : Effect u .deinit t) :
    { t with irq := u.irq, life := u.life, returned := u.returned, programs := u.programs } = u := by
  cases he <;> rfl

theorem Effect.isr_frame (he : Effect u .isr t) :
    { t with
      sub := u.sub, acc := u.acc, own := u.own, wpend := u.wpend, irq := u.irq, slatch := u.slatch,
      faultMarks := u.faultMarks, inputs := u.inputs, draws := u.draws } = u := by
  cases he with
  | begin | beginSkewed => simp
  | _ => rfl

theorem Effect.pins_frame {q : Phase} (he : Effect u (.pins q) t) : { t with irq := u.irq, phase := u.phase } = u := by
  cases he; rfl

/-- Settles O40: the frame of each operation, whatever its effect. -/
theorem operationFrames : Obligations.OperationFrames := by
  intro i s t hexec
  have he := effect_of_exec hexec
  obtain ⟨hscript, hsched, hactor⟩ := he.frame
  refine ⟨he.params_eq, hscript, hsched, hactor, he.command_frame, ?_, ?_, ?_, ?_, ?_, ?_, ?_⟩
  · rintro pinA pinB pulses rfl; exact he.init_frame
  · rintro rfl; exact he.initNull_frame
  · rintro rfl; exact he.get_frame
  · rintro rfl; exact he.reset_frame
  · rintro rfl; exact he.deinit_frame
  · rintro rfl; exact he.isr_frame
  · rintro q rfl; exact he.pins_frame

/-! ### Holds (R8) -/

/-- Settles O41: each operation that is not enabled takes its hold. -/
theorem disabledOperationHolds : Obligations.DisabledOperationHolds := by
  intro i s h
  rw [exec_next_iff]
  cases i with
  | init => exact initStep_of_taken (by simpa [enabled] using h)
  | initNull => exact initNullStep_of_taken (by simpa [enabled] using h)
  | deinit =>
    obtain ⟨hl, ho⟩ : s.life ≠ .uninitialized ∧ s.own ≠ .none := by simpa [enabled] using h
    exact deinitStep_of_taken (life_of_ne_uninitialized hl) ho
  | reset =>
    obtain ⟨⟨hl, ho⟩, hn⟩ : (s.life ≠ .uninitialized ∧ s.own ≠ .none) ∧ (s.own = .ctrl → s.caller ≠ s.actor) := by
      simpa [enabled] using h
    exact resetStep_of_taken (fun hc => hn hc.1 hc.2) (life_of_ne_uninitialized hl) ho
  | isr =>
    obtain ⟨ho, hready⟩ : s.own ≠ .dec ∧
        (decoderReady s = true → s.params.sampleSkew = true ∧ s.slatch.isSome = true) := by simpa [enabled] using h
    refine isrStep_of_not_ready ho ?_
    cases hr : decoderReady s
    · exact .inl rfl
    · exact .inr ((hready hr).imp id Option.ne_none_iff_isSome.2)
  | get | pins => simp [enabled] at h

end Sys2Proof.Machine
end

section
/-! PROOFS. Whole-machine rules (spec/10_state.md, 20_memory.md, 30_encoding.md, 60_exceptions.md,
70_reset_and_hazards.md): who may change the lifecycle, the guarded registers and a pending edge, who is told a
status, and when the run has ended. -/

namespace Sys2Proof.Machine

variable {s u t : State} {i : Instr}

/-! ### The lifecycle and `STEP` (R15, R16) -/

/-- `LIFE` and `STEP` have two writers: the commit of INIT and DEINIT. -/
theorem Effect.life_cases (he : Effect u i t) :
    (t.life = u.life ∧ t.stepReg = u.stepReg) ∨
    (∃ pinA pinB pulses, i = .init pinA pinB pulses ∧ u.life = .uninitialized ∧ t.life = .initialized ∧
      t.stepReg = stepOf u.params.fp pulses) ∨
    (i = .deinit ∧ u.life = .initialized ∧ t.life = .uninitialized ∧ t.stepReg = u.stepReg) := by
  cases he with
  | commitInit _ hl => exact .inr (.inl ⟨_, _, _, rfl, hl, rfl, rfl⟩)
  | deinit hl => exact .inr (.inr ⟨rfl, hl, rfl, rfl⟩)
  | _ => left; simp

/-- A step that changes `LIFE` or `STEP` runs INIT or DEINIT, as an agent's current line. -/
theorem StepEffect.life_cases (h : StepEffect s t) :
    (t.life = s.life ∧ t.stepReg = s.stepReg) ∨
    (∃ a ts c rest, s.sched = .agent a :: ts ∧ listFor s.programs a = c :: rest ∧
      ((∃ pinA pinB pulses, decode c = .ok (.init pinA pinB pulses) ∧ s.life = .uninitialized ∧ t.life = .initialized ∧
        t.stepReg = stepOf s.params.fp pulses) ∨
      (decode c = .ok .deinit ∧ s.life = .initialized ∧ t.life = .uninitialized ∧ t.stepReg = s.stepReg))) := by
  cases h with
  | idle | refused | environment => left; simp
  | decoder ts _ _ he =>
    obtain e | ⟨_, _, _, hi, -⟩ | ⟨hi, -⟩ := he.life_cases
    · exact .inl e
    · cases hi
    · cases hi
  | command a ts c rest i _ hs hp hd _ he =>
    obtain e | ⟨pinA, pinB, pulses, rfl, hinit⟩ | ⟨rfl, hdeinit⟩ := he.life_cases
    · exact .inl e
    · exact .inr ⟨a, ts, c, rest, hs, hp, .inl ⟨pinA, pinB, pulses, hd, hinit⟩⟩
    · exact .inr ⟨a, ts, c, rest, hs, hp, .inr ⟨hd, hdeinit⟩⟩

/-- Settles O34: of the two writers INIT goes from 0 to 1 and derives `STEP`, DEINIT goes from 1 to 0 and keeps it. -/
theorem onlyInitAndDeinitChangeTheLifecycle : Obligations.OnlyInitAndDeinitChangeTheLifecycle := by
  intro s t hstep
  obtain ⟨hlife, hkeep⟩ | ⟨a, ts, c, rest, hs, hp, hrun⟩ := (step_effect hstep).life_cases
  · refine ⟨fun h0 h1 => ?_, fun h1 h0 => ?_, fun hne => absurd hkeep hne⟩
    · simp [hlife, h0] at h1
    · simp [hlife, h1] at h0
  · obtain ⟨pinA, pinB, pulses, hd, hl, hl', e⟩ | ⟨hd, hl, hl', e⟩ := hrun
    · exact ⟨fun _ _ => ⟨a, ts, c, rest, pinA, pinB, pulses, hs, hp, hd, e⟩, fun h1 => by simp [hl] at h1,
        fun _ => ⟨hl, hl'⟩⟩
    · exact ⟨fun h0 => by simp [hl] at h0, fun _ _ => ⟨a, ts, c, rest, hs, hp, hd⟩, fun hne => absurd e hne⟩

/-! ### The registers the token guards (R33) -/

/-- The registers guarded by the token are the same in both states. -/
def SameGuarded (s t : State) : Prop :=
  t.sub = s.sub ∧ t.acc = s.acc ∧ t.stepReg = s.stepReg ∧ t.life = s.life ∧ t.own = s.own ∧ t.wpend = s.wpend ∧
    t.caller = s.caller

/-- While the token is taken, an operation that is not its holder's next step writes no guarded register: every writer
needs a free token or is the holder. -/
theorem Effect.sameGuarded (he : Effect u i t)
    (hother : u.own = .dec ∧ i ≠ .isr ∨ u.own = .ctrl ∧ ¬ (i = .reset ∧ u.caller = u.actor)) : SameGuarded u t := by
  have htaken : u.own ≠ .none := by obtain ⟨ho, -⟩ | ⟨ho, -⟩ := hother <;> simp [ho]
  cases he with
  | commitInit ho => exact absurd ho htaken
  | deinit _ ho => exact absurd ho htaken
  | resetBegin _ ho => exact absurd ho htaken
  | sample _ _ ho => exact absurd ho htaken
  | begin _ _ _ ho => exact absurd ho htaken
  | beginSkewed _ _ _ ho | decCommit ho => simp [ho] at hother
  | resetCommit ho hc => simp [ho, hc] at hother
  | _ => simp [SameGuarded]

/-- Settles O35: a turn of another agent is not the holder's, the decoder's turn is not a controller's. -/
theorem tokenExcludesOtherWriters : Obligations.TokenExcludesOtherWriters := by
  intro s t hstep hother
  change SameGuarded s t
  cases step_effect hstep with
  | idle | refused | environment => simp [SameGuarded]
  | decoder ts _ hs he =>
    refine he.sameGuarded (hother.imp (fun h => ?_) fun h => ⟨h.1, by simp⟩)
    simp [hs] at h
  | command a ts c rest i _ hs _ _ hi he =>
    refine he.sameGuarded (hother.imp (fun h => ⟨h.1, ?_⟩) fun h => ⟨h.1, fun hc => h.2 ?_⟩)
    · rintro rfl; cases hi
    · obtain rfl : s.caller = a := hc.2
      rw [hs]; rfl

/-! ### A pending edge (R33, R83) -/

/-- A pending edge is cleared by the decoder's first step and by the two changes of `LIFE`. -/
theorem Effect.irq_cases (he : Effect u i t) (hirq : u.irq = true) :
    t.irq = true ∨ (i = .isr ∧ u.life = .initialized ∧ u.own = .none) ∨ t.life ≠ u.life := by
  cases he with
  | sample _ hl ho => exact .inr (.inl ⟨rfl, hl, ho⟩)
  | begin _ _ hl ho => exact .inr (.inl ⟨rfl, hl, ho⟩)
  | commitInit _ hl | deinit hl => right; right; simp [hl]
  | _ => left; simp [hirq]

/-- Settles O37: of the two ways to clear an edge, the decoder's first step is taken in its own turn. -/
theorem pendingEdgeIsNotLost : Obligations.PendingEdgeIsNotLost := by
  intro s t hstep hirq hcleared
  have hne : t.irq ≠ true := by simp [hcleared]
  cases step_effect hstep with
  | idle | refused => exact absurd hirq hne
  | environment => simp [hirq] at hcleared
  | decoder ts _ hs he =>
    obtain e | ⟨-, hl, ho⟩ | hlife := he.irq_cases hirq
    · exact absurd e hne
    · exact .inl ⟨by rw [hs]; rfl, hl, ho⟩
    · exact .inr hlife
  | command a ts c rest i _ hs _ _ hi he =>
    obtain e | ⟨rfl, -⟩ | hlife := he.irq_cases hirq
    · exact absurd e hne
    · cases hi
    · exact .inr hlife

/-! ### Statuses (R42, R61) -/

theorem Status.code_le (st : Status) : st.code.toNat ≤ 4 := by cases st <;> simp [Status.code]

/-- An operation returns nothing, or it is a command that answers its agent once and ends its line. -/
theorem Effect.returned_cases (he : Effect u i t) :
    t.returned = u.returned ∨
    (i.isCommand = true ∧ ∃ st, t.returned = u.returned ++ [(u.actor, st)] ∧ t.programs = nextPrograms u) := by
  cases he with
  | invalid | invalidNull | bindingFailed | commitInit | deinitFailed | deinit | getNotInitialized | get | getRacing |
    resetNotInitialized | resetCommit => exact .inr ⟨rfl, _, rfl, rfl⟩
  | _ => left; simp

/-- Settles O38: only a command answers, to the agent whose turn it is. -/
theorem statusGoesToTheIssuer : Obligations.StatusGoesToTheIssuer := by
  intro s t hstep hne
  cases step_effect hstep with
  | idle | refused | environment => simp at hne
  | decoder _ _ _ he =>
    obtain e | ⟨hi, -⟩ := he.returned_cases
    · exact absurd e hne
    · cases hi
  | command a ts c rest i _ hs hp _ _ he =>
    obtain e | ⟨-, st, hret, hprog⟩ := he.returned_cases
    · exact absurd e hne
    · exact ⟨a, ts, c, rest, st, hs, hp, hret, st.code_le, by rw [hprog]; simp [nextPrograms, hp]⟩

/-! ### The end of a run (R100) -/

/-- Where every agent's list is empty, each reads as empty. -/
theorem listFor_of_all_empty {α : Type} {l : List (Nat × List α)} (h : l.all (fun e => e.2.isEmpty) = true) (a : Nat) :
    listFor l a = [] := by
  induction l with
  | nil => rfl
  | cons e rest ih =>
    simp only [List.all_cons, Bool.and_eq_true, List.isEmpty_iff] at h
    rw [show listFor (e :: rest) a = if a = e.1 then e.2 else listFor rest a from rfl, h.1, ih h.2, ite_self]

theorem final_iff (s : State) : s.final = true ↔
    s.clean = true ∧ s.own = .none ∧ (s.irq = false ∨ s.life = .uninitialized) ∧
      s.programs.all (fun e => e.2.isEmpty) = true ∧ s.script = [] := by
  simp [State.final, and_assoc]

/-- Settles O42: no agent has a line, the script is at its end and the decoder may not start. -/
theorem finalStateIsQuiescent : Obligations.FinalStateIsQuiescent := by
  intro s hfinal
  obtain ⟨-, ho, hedge, hprog, hscript⟩ := (final_iff s).1 hfinal
  have hready : decoderReady s = false := by obtain h | h := hedge <;> simp [decoderReady, h]
  obtain e | ⟨a, _, _, _, _, _, hp, -⟩ | ⟨a, _, _, _, _, _, hp, -⟩ | ⟨ts, hs, e⟩ | ⟨_, _, _, -, hq, -⟩ := step_cases s
  · exact e
  · simp [listFor_of_all_empty hprog] at hp
  · simp [listFor_of_all_empty hprog] at hp
  · rw [e, hs]
    exact congrArg _ (isrStep_of_not_ready (s := { s with sched := ts }) (by simp [ho]) (.inl hready))
  · simp [hscript] at hq

/-- The lists of what was told are equal exactly when each agent was told the same. -/
theorem toldLists_eq_iff (r r' : List (Nat × Status)) :
    toldLists r = toldLists r' ↔ ∀ a, toldFrom r a = toldFrom r' a := by
  refine ⟨fun h a => by rw [← listFor_toldLists, h, listFor_toldLists], fun h => ?_⟩
  exact agentLists_ext (agentListsWf_toldLists r) (agentListsWf_toldLists r') fun a => by simp [h a]

/-- Settles O54: the observation is the lists told and the four registers. -/
theorem observationIsPerAgent : Obligations.ObservationIsPerAgent := by
  intro s t
  rw [State.observe, State.observe, Observation.mk.injEq, toldLists_eq_iff]
  rfl

end Sys2Proof.Machine
end

section
/-! PROOFS. What a run does not read (spec/10_state.md sections 3 and 4): the tag of `SUB` (R12, R25) and the
registers power-on leaves unset (R27). Both are relations between states that every step keeps: related states take
the same turn and the same effect of the same operation. -/

namespace Sys2Proof.Machine

/-! ### Relations that every step keeps -/

variable {u v : State} {i : Instr}

/-- An effect with its guards is what the operation leads to: `Effect` is the graph of `ran`. -/
theorem Effect.ran_eq {t : State} (he : Effect u i t) : ran i u = t := by
  cases he with
  | holdInit ho => exact initStep_of_taken ho
  | holdInitNull ho => exact initNullStep_of_taken ho
  | holdDeinit hl ho => exact deinitStep_of_taken hl ho
  | holdReset hn hl ho => exact resetStep_of_taken hn hl ho
  | holdIsr ho hwhy => exact isrStep_of_not_ready ho hwhy
  | refuseInit ho hl => exact initStep_of_initialized ho hl
  | refuseInitNull ho hl => exact initNullStep_of_initialized ho hl
  | invalid ho hl hv => exact initStep_of_invalid ho hl hv
  | invalidNull ho hl => exact initNullStep_of_uninitialized ho hl
  | bindingFailed _ ho hl hv hb => exact initStep_of_bindingFailed ho hl hv hb
  | commitInit ho hl hv hb => exact initStep_of_bound ho hl hv hb
  | deinitFailed hl => exact deinitStep_of_uninitialized hl
  | deinit hl ho => exact deinitStep_of_free ho hl
  | getNotInitialized hl => exact getStep_of_uninitialized hl
  | get hl ho => exact getStep_of_free hl ho
  | getRacing hl ho => exact getStep_of_taken hl ho
  | resetNotInitialized hn hl => exact resetStep_of_uninitialized hn hl
  | resetBegin hl ho => exact resetStep_of_free hl ho
  | resetCommit ho hc => exact resetStep_of_caller ho hc
  | sample hirq hl ho hskew hlatch => exact isrStep_of_unsampled hskew hirq hl ho hlatch
  | badRow hirq hl ho hskew hr => exact (isrStep_of_ready hskew hirq hl ho).trans (decBegin_of_badRow hr)
  | begin _ hirq hl ho hskew hr => exact (isrStep_of_ready hskew hirq hl ho).trans (decBegin_of_row hr)
  | badRowSkewed ho hskew hlatch hr =>
    obtain ⟨⟨first, level⟩, hsample⟩ := Option.isSome_iff_exists.1 hlatch
    exact (isrStep_of_sampled hskew ho hsample).trans (decBeginSkewed_of_badRow hr)
  | beginSkewed _ _ _ ho hskew hlatch hr =>
    exact (isrStep_of_sampled hskew ho hlatch).trans (decBeginSkewed_of_row hr)
  | decCommit _ hd => exact isrStep_of_decoding hd
  | pins => rfl

/-- A relation that steps keep: related states have the same turn to take, and taking it, refusing a word and running an
operation keep the relation. -/
structure Simulation (R : State → State → Prop) : Prop where
  sched {s t : State} : R s t → t.sched = s.sched
  programs {s t : State} : R s t → t.programs = s.programs
  script {s t : State} : R s t → t.script = s.script
  take {s t : State} : R s t → ∀ ts : List Turn, R { s with sched := ts } { t with sched := ts }
  act {s t : State} : R s t → ∀ a : Nat, R { s with actor := a } { t with actor := a }
  read {s t : State} : R s t → ∀ qs : List Phase, R { s with script := qs } { t with script := qs }
  refuse {s t : State} : R s t → ∀ r : RefuseReason, R (s.refuse r) (t.refuse r)
  run {s t : State} : R s t → ∀ {i : Instr} {s' : State}, Effect s i s' → ∃ t', Effect t i t' ∧ R s' t'

variable {s t : State}

/-- Running the same operation in related states. -/
theorem Simulation.exec {R : State → State → Prop} (h : Simulation R) (hR : R s t) {s' : State}
    (hexec : exec i s = .next s') : ∃ t', exec i t = .next t' ∧ R s' t' := by
  obtain ⟨t', he, hR'⟩ := h.run hR (effect_of_exec hexec)
  exact ⟨t', exec_next_iff.2 he.ran_eq, hR'⟩

/-- Steps of related states end in related states. -/
theorem Simulation.step {R : State → State → Prop} (h : Simulation R) (hR : R s t) {s' : State}
    (hstep : step s = .next s') : ∃ t', step t = .next t' ∧ R s' t' := by
  have hsched := h.sched hR
  cases hs : s.sched with
  | nil =>
    rw [step_of_no_turn hs] at hstep
    injection hstep with e
    exact ⟨t, step_of_no_turn (hsched.trans hs), e ▸ hR⟩
  | cons turn ts =>
    rw [hs] at hsched
    have hR' := h.take hR ts
    cases turn with
    | decoder =>
      rw [step_of_decoder hs] at hstep
      rw [step_of_decoder hsched]
      exact h.exec hR' hstep
    | environment =>
      have hscript := h.script hR
      cases hq : s.script with
      | nil =>
        rw [step_of_idle_environment hs hq] at hstep
        injection hstep with e
        exact ⟨_, step_of_idle_environment hsched (hscript.trans hq), e ▸ hR'⟩
      | cons q qs =>
        rw [step_of_environment hs hq] at hstep
        rw [step_of_environment hsched (hscript.trans hq)]
        exact h.exec (h.read hR' qs) hstep
    | agent a =>
      have hprog := congrArg (listFor · a) (h.programs hR)
      cases hp : listFor s.programs a with
      | nil =>
        rw [step_of_idle_agent hs hp] at hstep
        injection hstep with e
        exact ⟨_, step_of_idle_agent hsched (hprog.trans hp), e ▸ hR'⟩
      | cons c rest =>
        cases hd : decode c with
        | ok i =>
          rw [step_of_command hs hp hd] at hstep
          rw [step_of_command hsched (hprog.trans hp) hd]
          exact h.exec (h.act hR' a) hstep
        | error r =>
          have href := h.refuse (h.act hR' a) r
          rw [step_of_refused hs hp hd] at hstep
          injection hstep with e
          refine ⟨_, step_of_refused hsched (hprog.trans hp) hd, ?_⟩
          simpa [← e, State.refuse, nextPrograms, hp, hprog.trans hp] using href

/-! ### The tag of `SUB` -/

/-- The same effect for another tag in `SUB`: only the row is looked up. -/
theorem Effect.sameButTag (he : Effect u i t) (h : SameButTag u v) : ∃ t', Effect v i t' ∧ SameButTag t t' := by
  obtain ⟨sub, rfl, hrow⟩ : ∃ sub, v = { u with sub := sub } ∧ rowOf u.sub = rowOf sub := ⟨v.sub, h.1.symm, h.2⟩
  cases he with
  | holdInit ho => exact ⟨_, .holdInit ho, rfl, hrow⟩
  | holdInitNull ho => exact ⟨_, .holdInitNull ho, rfl, hrow⟩
  | holdDeinit hl ho => exact ⟨_, .holdDeinit hl ho, rfl, hrow⟩
  | holdReset hn hl ho => exact ⟨_, .holdReset hn hl ho, rfl, hrow⟩
  | holdIsr ho hwhy => exact ⟨_, .holdIsr ho hwhy, rfl, hrow⟩
  | refuseInit ho hl => exact ⟨_, .refuseInit ho hl, rfl, hrow⟩
  | refuseInitNull ho hl => exact ⟨_, .refuseInitNull ho hl, rfl, hrow⟩
  | invalid ho hl hv => exact ⟨_, .invalid ho hl hv, rfl, hrow⟩
  | invalidNull ho hl => exact ⟨_, .invalidNull ho hl, rfl, hrow⟩
  | bindingFailed code ho hl hv hb => exact ⟨_, .bindingFailed code ho hl hv hb, rfl, hrow⟩
  | commitInit ho hl hv hb => exact ⟨_, .commitInit ho hl hv hb, rfl, rfl⟩
  | deinitFailed hl => exact ⟨_, .deinitFailed hl, rfl, hrow⟩
  | deinit hl ho => exact ⟨_, .deinit hl ho, rfl, hrow⟩
  | getNotInitialized hl => exact ⟨_, .getNotInitialized hl, rfl, hrow⟩
  | get hl ho => exact ⟨_, .get hl ho, rfl, hrow⟩
  | getRacing hl ho => exact ⟨_, .getRacing hl ho, rfl, hrow⟩
  | resetNotInitialized hn hl => exact ⟨_, .resetNotInitialized hn hl, rfl, hrow⟩
  | resetBegin hl ho => exact ⟨_, .resetBegin hl ho, rfl, hrow⟩
  | resetCommit ho hc => exact ⟨_, .resetCommit ho hc, rfl, hrow⟩
  | sample hirq hl ho hskew hlatch => exact ⟨_, .sample hirq hl ho hskew hlatch, rfl, hrow⟩
  | badRow hirq hl ho hskew hr => exact ⟨_, .badRow hirq hl ho hskew (hrow ▸ hr), rfl, hrow⟩
  | begin r hirq hl ho hskew hr => exact ⟨_, .begin r hirq hl ho hskew (hrow ▸ hr), rfl, rfl⟩
  | badRowSkewed ho hskew hlatch hr => exact ⟨_, .badRowSkewed ho hskew hlatch (hrow ▸ hr), rfl, hrow⟩
  | beginSkewed first level r ho hskew hlatch hr =>
    exact ⟨_, .beginSkewed first level r ho hskew hlatch (hrow ▸ hr), rfl, rfl⟩
  | decCommit ho hd => exact ⟨_, .decCommit ho hd, rfl, hrow⟩
  | pins q => exact ⟨_, .pins q, rfl, hrow⟩

theorem simulation_sameButTag : Simulation SameButTag where
  sched h := by rw [← h.1]
  programs h := by rw [← h.1]
  script h := by rw [← h.1]
  take h ts := ⟨by rw [← h.1], h.2⟩
  act h a := ⟨by rw [← h.1], h.2⟩
  read h qs := ⟨by rw [← h.1], h.2⟩
  refuse h r := ⟨by rw [← h.1]; rfl, h.2⟩
  run h _ _ he := he.sameButTag h

/-- Settles O49: states that differ in the tag take the same turns and effects. -/
theorem staleTagIsNeverRead : Obligations.StaleTagIsNeverRead := fun _ _ _ h hstep =>
  simulation_sameButTag.step h hstep

/-! ### The unset registers (R27) -/

theorem SameButUnset.exists_eq (h : SameButUnset s t) :
    ∃ sub acc stepReg wpend caller,
      t = { s with sub := sub, acc := acc, stepReg := stepReg, wpend := wpend, caller := caller } := by
  refine ⟨t.sub, t.acc, t.stepReg, t.wpend, t.caller, ?_⟩
  rw [h.life, h.own, h.irq, h.slatch, h.faultMarks, h.refusedMarks, h.phase, h.params, h.programs, h.script, h.returned,
    h.sched, h.actor, h.inputs, h.draws]

theorem SameButUnset.nextPrograms (h : SameButUnset s t) : nextPrograms s = nextPrograms t := by
  rw [Machine.nextPrograms, Machine.nextPrograms, h.programs, h.actor]

theorem SameButUnset.initialized (h : SameButUnset s t) (ho : s.own ≠ .none) : s.life = .initialized :=
  life_of_ne_uninitialized fun hl => ho (h.idle hl)

theorem SameButUnset.answer (h : SameButUnset s t) (st : Status) : SameButUnset (s.answer st) (t.answer st) :=
  { h with
    programs := h.nextPrograms
    returned := by simp [h.returned, h.actor] }

theorem SameButUnset.refuse (h : SameButUnset s t) (r : RefuseReason) : SameButUnset (s.refuse r) (t.refuse r) :=
  { h with
    programs := h.nextPrograms
    refusedMarks := by simp [h.refusedMarks] }

theorem SameButUnset.raiseFault (h : SameButUnset s t) (r : Fault) : SameButUnset (s.raiseFault r) (t.raiseFault r) :=
  { h with faultMarks := by simp [h.faultMarks] }

theorem SameButUnset.afterDraw (h : SameButUnset s t) : SameButUnset s.afterDraw t.afterDraw :=
  { h with
    inputs := by simp [h.inputs]
    draws := by simp [h.inputs, h.draws] }

theorem SameButUnset.pinsStep (h : SameButUnset s t) (q : Phase) : SameButUnset (pinsStep q s) (pinsStep q t) :=
  { h with
    irq := by simp [h.irq, h.life, h.phase]
    phase := rfl }

/-- A commit stores a pending value, which the two states share. -/
theorem SameButUnset.commitWrite (h : SameButUnset s t) (hpend : s.own = .ctrl ∨ s.decoding = true) :
    SameButUnset s.commitWrite t.commitWrite :=
  { h with
    own := rfl
    idle := fun _ => rfl
    acc := fun _ => h.wpend hpend
    wpend := by simp [State.decoding]
    caller := nofun }

/-- INIT writes the registers that were unset. -/
theorem SameButUnset.commitInit (h : SameButUnset s t) (ho : s.own = .none) (n : Pulses) :
    SameButUnset (s.commitInit n) (t.commitInit n) :=
  { h with
    life := rfl
    irq := rfl
    idle := nofun
    sub := fun _ => by simp [h.params]
    acc := fun _ => rfl
    stepReg := fun _ => by simp [h.params]
    wpend := by simp [State.decoding, ho] }

theorem SameButUnset.unbind (h : SameButUnset s t) (ho : s.own = .none) :
    SameButUnset { s with irq := false, life := .uninitialized } { t with irq := false, life := .uninitialized } :=
  { h with
    life := rfl
    irq := rfl
    idle := fun _ => ho
    sub := nofun
    acc := nofun
    stepReg := nofun }

theorem SameButUnset.resetBegin (h : SameButUnset s t) (hl : s.life = .initialized) :
    SameButUnset { s with own := .ctrl, caller := s.actor, wpend := f0 }
      { t with own := .ctrl, caller := t.actor, wpend := f0 } :=
  { h with
    own := rfl
    idle := fun hu => by simp [hl] at hu
    wpend := fun _ => rfl
    caller := fun _ => h.actor }

theorem SameButUnset.drawn (h : SameButUnset s t) : s.drawn = t.drawn := by
  rw [State.drawn, State.drawn, h.inputs, h.draws]

theorem SameButUnset.decSample (h : SameButUnset s t) (hl : s.life = .initialized)
    (hskew : s.params.sampleSkew = true) : SameButUnset (decSample s) (decSample t) :=
  { h.afterDraw with
    own := rfl
    irq := rfl
    slatch := by simp [h.drawn, h.phase]
    idle := fun hu => by simp [hl] at hu
    wpend := by simp [State.decoding, hskew]
    caller := nofun }

/-- While initialized the two states ask for the same update. -/
theorem SameButUnset.actionValue_eq (h : SameButUnset s t) (hl : s.life = .initialized) (tag : Nibble) :
    actionValue s.params.fp (dispatch s.params tag) s.acc s.stepReg =
      actionValue t.params.fp (dispatch t.params tag) t.acc t.stepReg := by
  rw [h.params, h.acc hl, h.stepReg hl]

/-- The end of DEC_BEGIN, the edge consumed or not and the sample used up or not. -/
theorem SameButUnset.storeWord (h : SameButUnset s t) (hl : s.life = .initialized) (edge : Bool)
    (latch : Option (PhaseBit × Bool)) (w : RomWord) :
    SameButUnset (State.storeWord { s with irq := edge, slatch := latch } w)
      (State.storeWord { t with irq := edge, slatch := latch } w) := by
  have haction := h.actionValue_eq hl (tagOf w)
  obtain ⟨v, hv, e⟩ | ⟨hv, e⟩ := storeWord_cases { s with irq := edge, slatch := latch } w <;> rw [e]
  · rw [State.storeWord_of_value { t with irq := edge, slatch := latch } (haction.symm.trans hv)]
    exact { h with
      own := rfl
      irq := rfl
      slatch := rfl
      idle := fun hu => by simp [hl] at hu
      sub := fun _ => rfl
      wpend := fun _ => rfl
      caller := nofun }
  · rw [State.storeWord_of_none { t with irq := edge, slatch := latch } (haction.symm.trans hv)]
    exact { h with
      own := rfl
      irq := rfl
      slatch := rfl
      idle := fun _ => rfl
      sub := fun _ => rfl
      wpend := by simp [State.decoding]
      caller := nofun }

/-- A racing read of the two states (R64): torn reads take the free input, and without skewed samples a taken token
means that the pending value was written. -/
theorem SameButUnset.racingOf_eq (h : SameButUnset s t) (hl : s.life = .initialized) (ho : s.own ≠ .none)
    (hopts : s.params.readAtomic = false ∨ s.params.sampleSkew = false) (x : BitVec 64) :
    racingOf s.params.readAtomic s.acc s.wpend x = racingOf t.params.readAtomic t.acc t.wpend x := by
  rw [← h.params, ← h.acc hl]
  obtain htorn | hskew := hopts
  · rw [htorn]; rfl
  · have hpend : s.own = .ctrl ∨ s.decoding = true := by
      cases hown : s.own with
      | none => exact absurd hown ho
      | ctrl => exact .inl rfl
      | dec => exact .inr (s.decoding_iff.2 ⟨hown, .inl hskew⟩)
    rw [h.wpend hpend]

/-- The same effect whatever the unset registers hold. -/
theorem Effect.sameButUnset {s' : State} (he : Effect s i s') (h : SameButUnset s t)
    (hopts : s.params.readAtomic = false ∨ s.params.sampleSkew = false) :
    ∃ t', Effect t i t' ∧ SameButUnset s' t' := by
  obtain ⟨sub, acc, stepReg, wpend, caller, rfl⟩ := h.exists_eq
  cases he with
  | holdInit ho => exact ⟨_, .holdInit ho, h⟩
  | holdInitNull ho => exact ⟨_, .holdInitNull ho, h⟩
  | holdDeinit hl ho => exact ⟨_, .holdDeinit hl ho, h⟩
  | holdReset hn hl ho => exact ⟨_, .holdReset (fun hc => hn ⟨hc.1, (h.caller hc.1).trans hc.2⟩) hl ho, h⟩
  | holdIsr ho hwhy => exact ⟨_, .holdIsr ho hwhy, h⟩
  | refuseInit ho hl => exact ⟨_, .refuseInit ho hl, h.refuse _⟩
  | refuseInitNull ho hl => exact ⟨_, .refuseInitNull ho hl, h.refuse _⟩
  | invalid ho hl hv => exact ⟨_, .invalid ho hl hv, h.answer _⟩
  | invalidNull ho hl => exact ⟨_, .invalidNull ho hl, h.answer _⟩
  | bindingFailed code ho hl hv hb => exact ⟨_, .bindingFailed code ho hl hv hb, h.afterDraw.answer _⟩
  | commitInit ho hl hv hb => exact ⟨_, .commitInit ho hl hv hb, (h.afterDraw.commitInit ho _).answer _⟩
  | deinitFailed hl => exact ⟨_, .deinitFailed hl, h.answer _⟩
  | deinit hl ho => exact ⟨_, .deinit hl ho, (h.unbind ho).answer _⟩
  | getNotInitialized hl => exact ⟨_, .getNotInitialized hl, h.answer _⟩
  | get hl ho => exact ⟨_, .get hl ho, h.acc hl ▸ h.answer _⟩
  | getRacing hl ho => exact ⟨_, .getRacing hl ho, h.racingOf_eq hl ho hopts _ ▸ h.afterDraw.answer _⟩
  | resetNotInitialized hn hl =>
    exact ⟨_, .resetNotInitialized (fun hc => hn ⟨hc.1, (h.caller hc.1).trans hc.2⟩) hl, h.answer _⟩
  | resetBegin hl ho => exact ⟨_, .resetBegin hl ho, h.resetBegin hl⟩
  | resetCommit ho hc => exact ⟨_, .resetCommit ho ((h.caller ho).symm.trans hc), (h.commitWrite (.inl ho)).answer _⟩
  | sample hirq hl ho hskew hlatch => exact ⟨_, .sample hirq hl ho hskew hlatch, h.decSample hl hskew⟩
  | badRow hirq hl ho hskew hr => exact ⟨_, .badRow hirq hl ho hskew (h.sub hl ▸ hr), h.raiseFault _⟩
  | begin r hirq hl ho hskew hr =>
    exact ⟨_, .begin r hirq hl ho hskew (h.sub hl ▸ hr), h.storeWord hl false s.slatch _⟩
  | badRowSkewed ho hskew hlatch hr =>
    exact ⟨_, .badRowSkewed ho hskew hlatch (h.sub (h.initialized (by simp [ho])) ▸ hr), h.raiseFault _⟩
  | beginSkewed first level r ho hskew hlatch hr =>
    have hl := h.initialized (by simp [ho])
    exact ⟨_, .beginSkewed first level r ho hskew hlatch (h.sub hl ▸ hr), h.storeWord hl s.irq none _⟩
  | decCommit ho hd => exact ⟨_, .decCommit ho hd, h.commitWrite (.inr hd)⟩
  | pins q => exact ⟨_, .pins q, h.pinsStep q⟩

/-- The block is not one of both `SAMPLE_SKEW` and `READ_ATOMIC`, whose racing read may show an old `WPEND`
(notes/assumptions/14.md). -/
def SameButUnsetShown (s t : State) : Prop :=
  SameButUnset s t ∧ (s.params.readAtomic = false ∨ s.params.sampleSkew = false)

theorem simulation_sameButUnset : Simulation SameButUnsetShown where
  sched h := h.1.sched.symm
  programs h := h.1.programs.symm
  script h := h.1.script.symm
  take h _ := ⟨{ h.1 with sched := rfl }, h.2⟩
  act h _ := ⟨{ h.1 with actor := rfl }, h.2⟩
  read h _ := ⟨{ h.1 with script := rfl }, h.2⟩
  refuse h r := ⟨h.1.refuse r, h.2⟩
  run h _ _ he := by
    obtain ⟨t', het, hrel⟩ := he.sameButUnset h.1 h.2
    exact ⟨t', het, hrel, he.params_eq ▸ h.2⟩

/-- Settles O48: states that differ in unset registers take the same turns and effects. -/
theorem unsetRegistersAreNeverSeen : Obligations.UnsetRegistersAreNeverSeen := by
  intro s t s' h hopts hstep
  obtain ⟨t', hstep', hrel, -⟩ := simulation_sameButUnset.step ⟨h, hopts⟩ hstep
  exact ⟨t', hstep', hrel⟩

end Sys2Proof.Machine
end

section
/-! PROOFS. Runs of the decoder (spec/40_transition_rom.md section 3, 41_edge_decoder.md section 3): a double-bit
change counts nothing, and a decode ends within three turns. -/

namespace Sys2Proof.Machine

variable {s t u : State}

/-! ### Turns in a row -/

theorem stepsFrom_succ {k : Nat} (h : step s = .next t) : stepsFrom s (k + 1) = stepsFrom t k := by
  rw [stepsFrom, h]

theorem stepsFrom_add (m n : Nat) (s : State) : stepsFrom s (m + n) = stepsFrom (stepsFrom s m) n := by
  induction m generalizing s with
  | zero => rw [Nat.zero_add]; rfl
  | succ m ih =>
    obtain ⟨t, h⟩ := step_eq_next s
    rw [Nat.succ_add, stepsFrom_succ h, stepsFrom_succ h, ih]

/-- The state with another schedule: what a turn of the decoder changes beside the step of DECODE it runs. -/
def State.withSched (s : State) (ts : List Turn) : State := { s with sched := ts }

@[simp] theorem State.withSched_withSched (s : State) (ts ts' : List Turn) :
    (s.withSched ts).withSched ts' = s.withSched ts' := rfl

theorem storeWord_withSched (s : State) (w : RomWord) (ts : List Turn) :
    (s.withSched ts).storeWord w = (s.storeWord w).withSched ts := by
  obtain ⟨v, hv, e⟩ | ⟨hv, e⟩ := storeWord_cases s w <;> rw [e]
  · exact State.storeWord_of_value (s.withSched ts) hv
  · exact State.storeWord_of_none (s.withSched ts) hv

/-- DECODE does not read the schedule. -/
@[simp] theorem isrStep_withSched (s : State) (ts : List Turn) :
    isrStep (s.withSched ts) = (isrStep s).withSched ts := by
  have he : Effect s .isr (isrStep s) := effect_ran .isr s
  generalize isrStep s = t at he ⊢
  refine Effect.ran_eq (i := .isr) ?_
  cases he with
  | holdIsr ho hwhy => exact .holdIsr ho hwhy
  | sample hirq hl ho hskew hlatch => exact .sample hirq hl ho hskew hlatch
  | badRow hirq hl ho hskew hr => exact .badRow hirq hl ho hskew hr
  | badRowSkewed ho hskew hlatch hr => exact .badRowSkewed ho hskew hlatch hr
  | decCommit ho hd => exact .decCommit ho hd
  | begin r hirq hl ho hskew hr =>
    rw [← storeWord_withSched]; exact .begin (u := s.withSched ts) r hirq hl ho hskew hr
  | beginSkewed first level r ho hskew hlatch hr =>
    rw [← storeWord_withSched]; exact .beginSkewed (u := s.withSched ts) first level r ho hskew hlatch hr

theorem stepsFrom_decoder {ts : List Turn} {k : Nat} (hs : s.sched = .decoder :: ts) :
    stepsFrom s (k + 1) = stepsFrom ((isrStep s).withSched ts) k := by
  rw [← isrStep_withSched]
  exact stepsFrom_succ ((step_of_decoder hs).trans (exec_eq_next ..))

theorem stepsFrom_environment {ts : List Turn} {q : Phase} {qs : List Phase} {k : Nat}
    (hs : s.sched = .environment :: ts) (hq : s.script = q :: qs) :
    stepsFrom s (k + 1) = stepsFrom (pinsStep q { s with sched := ts, script := qs }) k :=
  stepsFrom_succ ((step_of_environment hs hq).trans (exec_eq_next ..))

/-! ### A double-bit change (R51) -/

/-- A word without a tag ends the decode, whatever the two tags of an admitted ROM are. -/
theorem storeWord_of_tag_zero (h : s.params.admitted = true) {w : RomWord} (ht : tagOf w = 0#4) :
    s.storeWord w = { s with sub := w, own := .none } :=
  s.storeWord_of_none (by rw [ht]; exact actionValue_untagged h ..)

/-- Settles O29: the word of a double-bit reading of a configuration of `Reach` has no tag. -/
theorem doubleBitTransitionNeverCounts : Obligations.DoubleBitTransitionNeverCounts := by
  intro s r p hadm hskew hirq hl ho hr hreach hdouble
  have htag : tagOf (s.params.tt.word r s.phase) = 0#4 := (admittedTablesTagAndRecover _ _ _ hadm hreach).1 _ hdouble
  refine exec_next_iff.2 ((isrStep_of_ready hskew hirq hl ho).trans ((decBegin_of_row hr).trans ?_))
  rw [storeWord_of_tag_zero (s := { s with irq := false }) hadm htag, ← ho]

/-! ### A decode ends (R62) -/

/-- The decode begun in `s` has ended in `t`: the token free, the edge consumed, no sample latched, and `ACC` changed
by the one rounded step of the tag stored. -/
def DecodeEnded (s t : State) : Prop :=
  t.own = .none ∧ t.irq = false ∧ t.slatch = none ∧ t.faultMarks = s.faultMarks ∧
    (t.acc = fpAdd s.params.fp s.acc s.stepReg ∧ t.sub.extractLsb' 4 4 = s.params.tagCw ∨
      t.acc = fpSub s.params.fp s.acc s.stepReg ∧ t.sub.extractLsb' 4 4 = s.params.tagCcw ∨
      t.acc = s.acc ∧ t.sub.extractLsb' 4 4 = 0x0#4)

/-- A turn of the decoder after the end of a decode holds. -/
theorem DecodeEnded.isrStep_eq (h : DecodeEnded s t) : isrStep t = t := by
  obtain ⟨hfree, hedge, -⟩ := h
  exact isrStep_of_not_ready (by simp [hfree]) (.inl (by simp [decoderReady, hedge]))

/-- Once the looked-up word is stored, one more turn of the decoder ends the decode: it commits the update of a tag and
holds without one. -/
theorem decodeEnded_isrStep_storeWord (h : u.params.admitted = true) (hirq : u.irq = false) (hlatch : u.slatch = none)
    (r : Fin 7) (p : Phase) : DecodeEnded u (isrStep (u.storeWord (u.params.tt.word r p))) := by
  obtain ⟨v, hv, e⟩ | ⟨hv, e⟩ := storeWord_cases u (u.params.tt.word r p)
  · rw [isrStep_of_decoding ((State.decoding_iff _).2 ⟨by rw [e], .inr (by simpa using hlatch)⟩), e]
    refine ⟨rfl, hirq, hlatch, rfl, ?_⟩
    obtain ⟨ht, rfl⟩ | ⟨-, ht, rfl⟩ := (actionValue_dispatch_eq_some ..).1 hv
    · exact .inl ⟨rfl, ht⟩
    · exact .inr (.inl ⟨rfl, ht⟩)
  · rw [isrStep_of_not_ready (by simp [e]) (.inl (by simp [decoderReady, hirq])), e]
    obtain ⟨hcw, hccw⟩ := (actionValue_dispatch_eq_none ..).1 hv
    have ht : tagOf (u.params.tt.word r p) = 0#4 :=
      (u.params.tag_of_admitted h r p).resolve_right (not_or.2 ⟨hcw, hccw⟩)
    exact ⟨rfl, hirq, hlatch, rfl, .inr (.inr ⟨rfl, ht⟩)⟩

/-- With one sample DEC_BEGIN comes in the first turn and the second ends the decode; with two the sample comes first.
-/
theorem TokenInv.decodeEnded (h : TokenInv s) (hl : s.life = .initialized) (hirq : s.irq = true) (ho : s.own = .none) :
    DecodeEnded s (isrStep (isrStep (isrStep s))) := by
  have hlatch := h.slatch_eq_none (by simp [ho])
  obtain ⟨r, hr⟩ : ∃ r : Fin 7, (rowOf s.sub).toNat = r.val := ⟨⟨_, Nat.lt_succ_of_le (h.row hl)⟩, rfl⟩
  cases hskew : s.params.sampleSkew with
  | false =>
    rw [isrStep_of_ready hskew hirq hl ho, decBegin_of_row hr]
    have hend : DecodeEnded s (isrStep (State.storeWord { s with irq := false } (s.params.tt.word r s.phase))) :=
      decodeEnded_isrStep_storeWord (u := { s with irq := false }) h.admitted rfl hlatch r s.phase
    rwa [hend.isrStep_eq]
  | true =>
    rw [isrStep_of_unsampled hskew hirq hl ho hlatch, isrStep_of_sampled (s := Machine.decSample s) hskew rfl rfl,
      decBeginSkewed_of_row (s := Machine.decSample s) hr]
    exact decodeEnded_isrStep_storeWord (u := { Machine.decSample s with slatch := none }) h.admitted rfl rfl r _

/-- Settles O25: the three turns are three steps of DECODE, after which the decode has ended. -/
theorem decodeEndsWithinThreeTurns : Obligations.DecodeEndsWithinThreeTurns := by
  intro s ts h hl hirq ho hs
  obtain ⟨hown, hedge, hlatch, hfault, hacc⟩ := h.decodeEnded hl hirq ho
  rw [stepsFrom_decoder hs, stepsFrom_decoder rfl, stepsFrom_decoder rfl]
  simp only [isrStep_withSched, State.withSched_withSched]
  exact ⟨hown, hedge, hlatch, rfl, hfault, hacc⟩

end Sys2Proof.Machine
end

section
/-! PROOFS. Full cycles (spec/40_transition_rom.md section 3, R50): an edge with its decode as one move of the row and
the position, a list of edges along a path of the ROM, and `n` cycles by induction. -/

namespace Sys2Proof

/-- R50: from `HOME` both full cycles tag once, at their end, and end in `HOME`. -/
theorem Params.fullCycles_of_admitted {P : Params} (h : P.admitted = true) :
    P.cyclesTagFrom P.home = true ∧ (P.tt.path P.home Rom.cwPhases).2 = some P.home ∧
      (P.tt.path P.home Rom.ccwPhases).2 = some P.home := by
  obtain ⟨-, -, -, hcycles, -⟩ := admitted_iff.1 h
  simpa [fullCyclesOk, and_assoc] using hcycles

/-- The tags along a path whose first word names a row. -/
theorem Rom.pathTags_cons {t : Rom} {r r' : Fin 7} {p : Phase} {ps : List Phase}
    (h : Rom.rowOfWord (t.word r p) = some r') :
    t.pathTags r (p :: ps) = Rom.tagOfWord (t.word r p) :: t.pathTags r' ps := by
  rw [Rom.pathTags, Rom.path_cons h, List.map_cons]; rfl

namespace Machine

variable {s : State} {r : Fin 7}

/-! ### One edge -/

/-- The decoder rests in row `r`: an admitted block with one sample, initialized, no write in flight, no edge pending.
-/
structure AtRest (s : State) (r : Fin 7) : Prop where
  admitted : s.params.admitted = true
  oneSample : s.params.sampleSkew = false
  initialized : s.life = .initialized
  free : s.own = .none
  noEdge : s.irq = false
  row : (rowOf s.sub).toNat = r.val

/-- The position after a decode that stored the tag `t` (R14, R58). -/
def afterTag (P : Params) (stepReg acc : F64) (t : Nibble) : F64 :=
  (actionValue P.fp (dispatch P t) acc stepReg).getD acc

/-- Two steps of DECODE on a pending edge: the word is stored and its tag applied. -/
theorem isrStep_isrStep_of_ready (hskew : s.params.sampleSkew = false) (hirq : s.irq = true)
    (hl : s.life = .initialized) (ho : s.own = .none) (hr : (rowOf s.sub).toNat = r.val) :
    ∃ wpend, isrStep (isrStep s) = { s with
      irq := false, own := .none, sub := s.params.tt.word r s.phase, wpend := wpend,
      acc := afterTag s.params s.stepReg s.acc (tagOf (s.params.tt.word r s.phase)) } := by
  rw [isrStep_of_ready hskew hirq hl ho, decBegin_of_row hr]
  obtain ⟨v, hv, e⟩ | ⟨hv, e⟩ := storeWord_cases { s with irq := false } (s.params.tt.word r s.phase)
  · have hd : (State.storeWord { s with irq := false } (s.params.tt.word r s.phase)).decoding = true :=
      (State.decoding_iff _).2 ⟨by rw [e], .inl (by simpa using hskew)⟩
    refine ⟨v, ?_⟩
    rw [isrStep_of_decoding hd, e, afterTag, hv]
    rfl
  · refine ⟨s.wpend, ?_⟩
    rw [isrStep_of_not_ready (by simp [e]) (.inl (by simp [decoderReady])), e, afterTag, hv]
    rfl

/-- An edge: the environment sets another phase, and two turns of the decoder store its word and apply its tag. -/
theorem stepsFrom_edge (h : AtRest s r) {q : Phase} {ts : List Turn} {qs : List Phase} (hne : q ≠ s.phase)
    (hs : s.sched = edgeTurns ++ ts) (hq : s.script = q :: qs) :
    ∃ wpend, stepsFrom s 3 = { s with
      phase := q, sub := s.params.tt.word r q, wpend := wpend,
      acc := afterTag s.params s.stepReg s.acc (tagOf (s.params.tt.word r q)), sched := ts, script := qs } := by
  obtain ⟨hadm, hskew, hl, ho, hirq, hr⟩ := h
  rw [stepsFrom_environment (ts := .decoder :: .decoder :: ts) hs hq,
    pinsStep_of_edge (s := { s with sched := .decoder :: .decoder :: ts, script := qs })
      ((edgeLatched_iff ..).2 ⟨hne, hl⟩), stepsFrom_decoder rfl, stepsFrom_decoder rfl]
  simp only [isrStep_withSched, State.withSched_withSched]
  obtain ⟨wpend, e⟩ := isrStep_isrStep_of_ready (r := r)
    (s := { s with sched := .decoder :: .decoder :: ts, script := qs, irq := true, phase := q }) hskew rfl hl ho hr
  exact ⟨wpend, by rw [e, ← ho, ← hirq]; rfl⟩

/-! ### Edges along a path of the ROM -/

/-- The position after successive tags. -/
def afterTags (P : Params) (stepReg acc : F64) (tags : List Nibble) : F64 := tags.foldl (afterTag P stepReg) acc

theorem edgesTurns_append (m n : Nat) (ts : List Turn) :
    edgesTurns (m + n) ++ ts = edgesTurns m ++ (edgesTurns n ++ ts) := by
  induction m with
  | zero => simp [edgesTurns]
  | succ m ih => rw [Nat.succ_add, edgesTurns, edgesTurns, List.append_assoc, List.append_assoc, ih]

/-- A list of edges, each to another phase, takes the decoder along the ROM's path and applies the path's tags. -/
theorem stepsFrom_edges {r' : Fin 7} {ts : List Turn} {qs : List Phase} (ps : List Phase) (h : AtRest s r)
    (hpath : (s.params.tt.path r ps).2 = some r') (hedges : List.IsChain (· ≠ ·) (s.phase :: ps))
    (hs : s.sched = edgesTurns ps.length ++ ts) (hq : s.script = ps ++ qs) :
    ∃ sub wpend, (rowOf sub).toNat = r'.val ∧ stepsFrom s (3 * ps.length) = { s with
      phase := ps.getLastD s.phase, sub := sub, wpend := wpend,
      acc := afterTags s.params s.stepReg s.acc (s.params.tt.pathTags r ps), sched := ts, script := qs } := by
  induction ps generalizing s r with
  | nil =>
    obtain rfl : r = r' := by simpa [Rom.path] using hpath
    simp only [edgesTurns, List.length_nil, List.nil_append] at hs hq
    exact ⟨s.sub, s.wpend, h.row, by rw [← hs, ← hq]; rfl⟩
  | cons p ps ih =>
    obtain ⟨hne, hchain⟩ := List.isChain_cons_cons.1 hedges
    obtain ⟨r₁, hr₁⟩ := s.params.rowOfWord_of_admitted h.admitted r p
    rw [List.length_cons, edgesTurns, List.append_assoc] at hs
    obtain ⟨wpend, e⟩ := stepsFrom_edge h hne.symm hs hq
    have hrest : AtRest (stepsFrom s 3) r₁ := by
      rw [e]; exact { h with row := Rom.rowOfWord_eq_some.1 hr₁ }
    rw [e] at hrest
    obtain ⟨sub, wpend', hsub, e'⟩ := ih hrest (by rw [← hpath, Rom.path_cons hr₁]) hchain rfl rfl
    refine ⟨sub, wpend', hsub, ?_⟩
    rw [List.length_cons, Nat.mul_succ, Nat.add_comm, stepsFrom_add, e, e', Rom.pathTags_cons hr₁, List.getLastD_cons]
    rfl

/-! ### Full cycles -/

/-- A full cycle of four edges from phase 3 back to it, from `HOME` back to `HOME`, whose tags apply `f` to the
position. -/
structure FullCycle (P : Params) (stepReg : F64) (ps : List Phase) (f : F64 → F64) : Prop where
  length : ps.length = 4
  home : (P.tt.path P.home ps).2 = some P.home
  edges : List.IsChain (· ≠ ·) (3#2 :: ps)
  back : ps.getLastD 3#2 = 3#2
  tags : ∀ x, afterTags P stepReg x (P.tt.pathTags P.home ps) = f x

variable {P : Params} {stepReg : F64}

theorem afterTag_untagged (h : P.admitted = true) (acc : F64) : afterTag P stepReg acc 0#4 = acc := by
  rw [afterTag, actionValue_untagged h]; rfl

theorem afterTag_tagCw (acc : F64) : afterTag P stepReg acc P.tagCw = fpAdd P.fp acc stepReg := by
  rw [afterTag, actionValue_tagCw]; rfl

theorem afterTag_tagCcw (h : P.admitted = true) (acc : F64) :
    afterTag P stepReg acc P.tagCcw = fpSub P.fp acc stepReg := by
  rw [afterTag, actionValue_tagCcw h]; rfl

theorem fullCycle_cw (h : P.admitted = true) :
    FullCycle P stepReg [1#2, 0#2, 2#2, 3#2] fun x => fpAdd P.fp x stepReg where
  length := rfl
  home := (Params.fullCycles_of_admitted h).2.1
  edges := by decide
  back := rfl
  tags x := by
    rw [← Rom.cwPhases, (Params.cyclesTagFrom_iff.1 (Params.fullCycles_of_admitted h).1).1]
    simp [afterTags, afterTag_untagged h, afterTag_tagCw]

theorem fullCycle_ccw (h : P.admitted = true) :
    FullCycle P stepReg [2#2, 0#2, 1#2, 3#2] fun x => fpSub P.fp x stepReg where
  length := rfl
  home := (Params.fullCycles_of_admitted h).2.2
  edges := by decide
  back := rfl
  tags x := by
    rw [← Rom.ccwPhases, (Params.cyclesTagFrom_iff.1 (Params.fullCycles_of_admitted h).1).2]
    simp [afterTags, afterTag_untagged h, afterTag_tagCcw h]

/-- `n` full cycles apply the cycle's step `n` times and come back to rest in `(HOME, 3)`. -/
theorem stepsFrom_fullCycles {ps : List Phase} {f : F64 → F64} {ts : List Turn} {qs : List Phase} (n : Nat)
    (hcycle : FullCycle s.params s.stepReg ps f) (h : AtRest s s.params.home) (hphase : s.phase = 3#2)
    (hs : s.sched = edgesTurns (4 * n) ++ ts) (hq : s.script = repeatPhases ps n ++ qs) :
    ∃ sub wpend, (rowOf sub).toNat = s.params.home.val ∧ stepsFrom s (12 * n) = { s with
      acc := applyTimes f n s.acc, sub := sub, wpend := wpend, sched := ts, script := qs } := by
  induction n generalizing s with
  | zero =>
    simp only [edgesTurns, repeatPhases, List.nil_append] at hs hq
    exact ⟨s.sub, s.wpend, h.row, by rw [← hs, ← hq]; rfl⟩
  | succ n ih =>
    obtain ⟨hlen, hhome, hedges, hback, htags⟩ := hcycle
    rw [Nat.mul_succ, Nat.add_comm, edgesTurns_append, ← hlen] at hs
    rw [repeatPhases, List.append_assoc] at hq
    obtain ⟨sub, wpend, hsub, e⟩ := stepsFrom_edges ps h hhome (hphase ▸ hedges) hs hq
    rw [hphase, hback, htags, hlen, ← hphase] at e
    have hrest : AtRest (stepsFrom s (3 * 4)) s.params.home := by rw [e]; exact { h with row := hsub }
    have ih := ih (s := stepsFrom s (3 * 4))
    rw [e] at hrest ih
    obtain ⟨sub', wpend', hsub', e'⟩ := ih ⟨hlen, hhome, hedges, hback, htags⟩ hrest hphase rfl rfl
    refine ⟨sub', wpend', hsub', ?_⟩
    rw [Nat.mul_succ, Nat.add_comm, stepsFrom_add, e, e']
    rfl

/-- Settles O30: both cycles of an admitted table are full cycles from `(HOME, 3)`. -/
theorem fullCyclesApplyOneTagEach : Obligations.FullCyclesApplyOneTagEach := by
  intro n s ts qs hadm hskew hl ho hirq hr hphase hs
  have hrest : AtRest s s.params.home := ⟨hadm, hskew, hl, ho, hirq, hr⟩
  exact ⟨fun hq => stepsFrom_fullCycles n (fullCycle_cw hadm) hrest hphase hs hq,
    fun hq => stepsFrom_fullCycles n (fullCycle_ccw hadm) hrest hphase hs hq⟩

end Machine

end Sys2Proof
end
